-- ==== Sys2Proof/Word.lean ====
section
/-! DEFINITION. The machine's word types (00_scope.md R6, R8). -/

namespace Sys2Proof

/-- A register value, an address, the pc, an ALU result, an instruction word: 32 bits (R6, R8). -/
abbrev Word := BitVec 32

/-- The smallest addressable unit of data memory: 8 bits (R6). -/
abbrev Byte := BitVec 8

/-- A register field: an unsigned 5-bit index 0..31 into the register file (30_encoding.md R81). -/
abbrev Reg := BitVec 5

end Sys2Proof
end

