-- ==== Sys2Proof/Syntax.lean ====
section
/-! DEFINITION. The instructions: one constructor per row of spec/opcode_table.json (30_encoding.md R95), with the
operands its format carries (R81 to R87, R104). -/

namespace Sys2Proof

/-- The 31 instructions. `rd`, `rs1`, `rs2` are register fields; an I or S immediate is its 12-bit field; an SB
offset is the 13-bit and a UJ offset the 21-bit two's complement number, whose bit 0 the encoding does not store
(R90, R92: see WellFormed.lean and log 16); a U immediate is its 20-bit field (R91). -/
inductive Instr where
  -- R-format (R82)
  | add (rd rs1 rs2 : Reg)
  | sub (rd rs1 rs2 : Reg)
  | sll (rd rs1 rs2 : Reg)
  | slt (rd rs1 rs2 : Reg)
  | xor (rd rs1 rs2 : Reg)
  | srl (rd rs1 rs2 : Reg)
  | sra (rd rs1 rs2 : Reg)
  | or (rd rs1 rs2 : Reg)
  | and (rd rs1 rs2 : Reg)
  | mul (rd rs1 rs2 : Reg)
  | div (rd rs1 rs2 : Reg)
  | rem (rd rs1 rs2 : Reg)
  -- I-format, ALU (R83)
  | addi (rd rs1 : Reg) (imm : BitVec 12)
  | andi (rd rs1 : Reg) (imm : BitVec 12)
  | ori (rd rs1 : Reg) (imm : BitVec 12)
  -- U-format (R86)
  | lui (rd : Reg) (imm : BitVec 20)
  | auipc (rd : Reg) (imm : BitVec 20)
  -- UJ-format (R87)
  | jal (rd : Reg) (offset : BitVec 21)
  -- I-format, JALR (R83)
  | jalr (rd rs1 : Reg) (imm : BitVec 12)
  -- SB-format (R85)
  | beq (rs1 rs2 : Reg) (offset : BitVec 13)
  | bne (rs1 rs2 : Reg) (offset : BitVec 13)
  | blt (rs1 rs2 : Reg) (offset : BitVec 13)
  | bge (rs1 rs2 : Reg) (offset : BitVec 13)
  -- I-format, loads (R83)
  | lb (rd rs1 : Reg) (imm : BitVec 12)
  | lh (rd rs1 : Reg) (imm : BitVec 12)
  | lw (rd rs1 : Reg) (imm : BitVec 12)
  | ld (rd rs1 : Reg) (imm : BitVec 12)
  -- S-format (R84): rs1 is the base, rs2 the data
  | sb (rs1 rs2 : Reg) (imm : BitVec 12)
  | sh (rs1 rs2 : Reg) (imm : BitVec 12)
  | sw (rs1 rs2 : Reg) (imm : BitVec 12)
  | sd (rs1 rs2 : Reg) (imm : BitVec 12)
  deriving DecidableEq, Repr

/-- Why the decoder does not support a word. Both end the run with HALTED(decode-error) (60_exceptions.md R243). -/
inductive DecodeError where
  /-- Bits 6:0 are none of the nine opcodes (30_encoding.md R98). -/
  | unsupportedOpcode (opcode : BitVec 7)
  /-- The opcode is one of the nine, but funct3 or funct7 selects no instruction (R99, decision D10; log 9). -/
  | unsupportedFunction (opcode : BitVec 7) (funct3 : BitVec 3) (funct7 : BitVec 7)
  deriving DecidableEq, Repr

/-- The six formats (R81). -/
inductive Format where
  | R | I | S | SB | U | UJ
  deriving DecidableEq, Repr

/-- The mnemonics, one per row of the table of R95: an instruction without its operands. -/
inductive Mnemonic where
  | add | sub | sll | slt | xor | srl | sra | or | and | mul | div | rem | addi | andi | ori | lui | auipc
  | jal | jalr | beq | bne | blt | bge | lb | lh | lw | ld | sb | sh | sw | sd
  deriving DecidableEq, Repr

/-- The operands of an instruction by format (R82 to R87, R104): what a word carries beside its selector values. -/
inductive Operands where
  | R (rd rs1 rs2 : Reg)
  | I (rd rs1 : Reg) (imm : BitVec 12)
  | S (rs1 rs2 : Reg) (imm : BitVec 12)
  | SB (rs1 rs2 : Reg) (offset : BitVec 13)
  | U (rd : Reg) (imm : BitVec 20)
  | UJ (rd : Reg) (offset : BitVec 21)
  deriving DecidableEq, Repr

/-- The 22 operation tags (R95, 40_decode_control.md R136): a closed list. -/
inductive AluOp where
  | add | sub | mul | div | rem | and | or | xor | sll | srl | sra | slt
  | load | store | lui | auipc | jal | jalr | beq | bne | blt | bge
  deriving DecidableEq, Repr

/-- One row of the mnemonic table, with the columns of R95. A selector the format lacks is `none`. A word w is the
instruction when `w &&& mask = pattern`. -/
structure TableRow where
  mnemonic : String
  format : Format
  opcode : BitVec 7
  funct3 : Option (BitVec 3)
  funct7 : Option (BitVec 7)
  tag : AluOp
  pattern : Word
  mask : Word
  deriving DecidableEq, Repr

end Sys2Proof
end

