-- ==== Sys2Proof/WellFormed.lean ====
section
/-! DEFINITION. Which instructions have an encoding. The register and immediate fields are as wide as their types,
so the one thing left to check is that a branch or JAL offset is even: "bit 0 is implicitly zero" (30_encoding.md
R85, R87, R90, R92). -/

namespace Sys2Proof

/-- The instruction can be encoded: an SB or UJ offset has bit 0 clear. -/
def Instr.wf : Instr → Bool
  | .jal _ offset => !offset.getLsbD 0
  | .beq _ _ offset | .bne _ _ offset | .blt _ _ offset | .bge _ _ offset => !offset.getLsbD 0
  | .add .. | .sub .. | .sll .. | .slt .. | .xor .. | .srl .. | .sra .. | .or .. | .and ..
  | .mul .. | .div .. | .rem .. | .addi .. | .andi .. | .ori .. | .lui .. | .auipc .. | .jalr ..
  | .lb .. | .lh .. | .lw .. | .ld .. | .sb .. | .sh .. | .sw .. | .sd .. => true

end Sys2Proof
end

