-- ==== Sys2Proof/Decode.lean ====
section
/-! DEFINITION. The decoder, a pure function of the 32-bit word (30_encoding.md sections 2 to 5, R96), the encoder
written from the same layouts (R94), and the mnemonic table of R95 that both read (R97). An instruction
is one 32-bit word and has no byte order where fetch reads it (20_memory.md R57). -/

namespace Sys2Proof

/-! ### Fields (R81) -/

def opcodeOf (w : Word) : BitVec 7 := w.extractLsb' 0 7
def rdOf (w : Word) : Reg := w.extractLsb' 7 5
def funct3Of (w : Word) : BitVec 3 := w.extractLsb' 12 3
def rs1Of (w : Word) : Reg := w.extractLsb' 15 5
def rs2Of (w : Word) : Reg := w.extractLsb' 20 5
def funct7Of (w : Word) : BitVec 7 := w.extractLsb' 25 7

/-! ### Immediate fields, unextended (R88 to R92); Operands.lean extends them to 32 bits -/

/-- `ir[31:20]` (R88). -/
def immIOf (w : Word) : BitVec 12 := w.extractLsb' 20 12

/-- `{ir[31:25], ir[11:7]}` (R89). -/
def immSOf (w : Word) : BitVec 12 := w.extractLsb' 25 7 ++ w.extractLsb' 7 5

/-- `{ir[31], ir[7], ir[30:25], ir[11:8], 1'b0}` (R90). -/
def immSBOf (w : Word) : BitVec 13 :=
  w.extractLsb' 31 1 ++ w.extractLsb' 7 1 ++ w.extractLsb' 25 6 ++ w.extractLsb' 8 4 ++ 0#1

/-- `ir[31:12]` (R91). -/
def immUOf (w : Word) : BitVec 20 := w.extractLsb' 12 20

/-- `{ir[31], ir[19:12], ir[20], ir[30:21], 1'b0}` (R92). -/
def immUJOf (w : Word) : BitVec 21 :=
  w.extractLsb' 31 1 ++ w.extractLsb' 12 8 ++ w.extractLsb' 20 1 ++ w.extractLsb' 21 10 ++ 0#1

/-! ### The mnemonic table (R95): the one constant that the decoder and the encoder both read (R97) -/

/-- The row of a mnemonic: name, format, opcode, funct3, funct7, operation tag, match, mask. -/
def tableRow : Mnemonic → TableRow
  | .add => ⟨"ADD", .R, 0b0110011, some 0b000, some 0b0000000, .add, 0x00000033, 0xFE00707F⟩
  | .sub => ⟨"SUB", .R, 0b0110011, some 0b000, some 0b0100000, .sub, 0x40000033, 0xFE00707F⟩
  | .sll => ⟨"SLL", .R, 0b0110011, some 0b001, some 0b0000000, .sll, 0x00001033, 0xFE00707F⟩
  | .slt => ⟨"SLT", .R, 0b0110011, some 0b010, some 0b0000000, .slt, 0x00002033, 0xFE00707F⟩
  | .xor => ⟨"XOR", .R, 0b0110011, some 0b100, some 0b0000000, .xor, 0x00004033, 0xFE00707F⟩
  | .srl => ⟨"SRL", .R, 0b0110011, some 0b101, some 0b0000000, .srl, 0x00005033, 0xFE00707F⟩
  | .sra => ⟨"SRA", .R, 0b0110011, some 0b101, some 0b0100000, .sra, 0x40005033, 0xFE00707F⟩
  | .or => ⟨"OR", .R, 0b0110011, some 0b110, some 0b0000000, .or, 0x00006033, 0xFE00707F⟩
  | .and => ⟨"AND", .R, 0b0110011, some 0b111, some 0b0000000, .and, 0x00007033, 0xFE00707F⟩
  | .mul => ⟨"MUL", .R, 0b0110011, some 0b000, some 0b0000001, .mul, 0x02000033, 0xFE00707F⟩
  | .div => ⟨"DIV", .R, 0b0110011, some 0b100, some 0b0000001, .div, 0x02004033, 0xFE00707F⟩
  | .rem => ⟨"REM", .R, 0b0110011, some 0b110, some 0b0000001, .rem, 0x02006033, 0xFE00707F⟩
  | .addi => ⟨"ADDI", .I, 0b0010011, some 0b000, none, .add, 0x00000013, 0x0000707F⟩
  | .andi => ⟨"ANDI", .I, 0b0010011, some 0b111, none, .and, 0x00007013, 0x0000707F⟩
  | .ori => ⟨"ORI", .I, 0b0010011, some 0b110, none, .or, 0x00006013, 0x0000707F⟩
  | .lui => ⟨"LUI", .U, 0b0110111, none, none, .lui, 0x00000037, 0x0000007F⟩
  | .auipc => ⟨"AUIPC", .U, 0b0010111, none, none, .auipc, 0x00000017, 0x0000007F⟩
  | .jal => ⟨"JAL", .UJ, 0b1101111, none, none, .jal, 0x0000006F, 0x0000007F⟩
  | .jalr => ⟨"JALR", .I, 0b1100111, some 0b000, none, .jalr, 0x00000067, 0x0000707F⟩
  | .beq => ⟨"BEQ", .SB, 0b1100011, some 0b000, none, .beq, 0x00000063, 0x0000707F⟩
  | .bne => ⟨"BNE", .SB, 0b1100011, some 0b001, none, .bne, 0x00001063, 0x0000707F⟩
  | .blt => ⟨"BLT", .SB, 0b1100011, some 0b100, none, .blt, 0x00004063, 0x0000707F⟩
  | .bge => ⟨"BGE", .SB, 0b1100011, some 0b101, none, .bge, 0x00005063, 0x0000707F⟩
  | .lb => ⟨"LB", .I, 0b0000011, some 0b000, none, .load, 0x00000003, 0x0000707F⟩
  | .lh => ⟨"LH", .I, 0b0000011, some 0b001, none, .load, 0x00001003, 0x0000707F⟩
  | .lw => ⟨"LW", .I, 0b0000011, some 0b010, none, .load, 0x00002003, 0x0000707F⟩
  | .ld => ⟨"LD", .I, 0b0000011, some 0b011, none, .load, 0x00003003, 0x0000707F⟩
  | .sb => ⟨"SB", .S, 0b0100011, some 0b000, none, .store, 0x00000023, 0x0000707F⟩
  | .sh => ⟨"SH", .S, 0b0100011, some 0b001, none, .store, 0x00001023, 0x0000707F⟩
  | .sw => ⟨"SW", .S, 0b0100011, some 0b010, none, .store, 0x00002023, 0x0000707F⟩
  | .sd => ⟨"SD", .S, 0b0100011, some 0b011, none, .store, 0x00003023, 0x0000707F⟩

/-- The 31 mnemonics, in the order of the spec's table. -/
def Mnemonic.all : List Mnemonic :=
  [.add, .sub, .sll, .slt, .xor, .srl, .sra, .or, .and, .mul, .div, .rem,
    .addi, .andi, .ori, .lui, .auipc, .jal, .jalr, .beq, .bne, .blt, .bge, .lb,
    .lh, .lw, .ld, .sb, .sh, .sw, .sd]

/-- The table as a list of rows. -/
def opcodeTable : List TableRow := Mnemonic.all.map tableRow

/-- The instruction of a mnemonic and operands, when the operands are of the mnemonic's shape. -/
def Mnemonic.instr : Mnemonic → Operands → Option Instr
  | .add, .R rd rs1 rs2 => some (.add rd rs1 rs2)
  | .sub, .R rd rs1 rs2 => some (.sub rd rs1 rs2)
  | .sll, .R rd rs1 rs2 => some (.sll rd rs1 rs2)
  | .slt, .R rd rs1 rs2 => some (.slt rd rs1 rs2)
  | .xor, .R rd rs1 rs2 => some (.xor rd rs1 rs2)
  | .srl, .R rd rs1 rs2 => some (.srl rd rs1 rs2)
  | .sra, .R rd rs1 rs2 => some (.sra rd rs1 rs2)
  | .or, .R rd rs1 rs2 => some (.or rd rs1 rs2)
  | .and, .R rd rs1 rs2 => some (.and rd rs1 rs2)
  | .mul, .R rd rs1 rs2 => some (.mul rd rs1 rs2)
  | .div, .R rd rs1 rs2 => some (.div rd rs1 rs2)
  | .rem, .R rd rs1 rs2 => some (.rem rd rs1 rs2)
  | .addi, .I rd rs1 imm => some (.addi rd rs1 imm)
  | .andi, .I rd rs1 imm => some (.andi rd rs1 imm)
  | .ori, .I rd rs1 imm => some (.ori rd rs1 imm)
  | .jalr, .I rd rs1 imm => some (.jalr rd rs1 imm)
  | .lb, .I rd rs1 imm => some (.lb rd rs1 imm)
  | .lh, .I rd rs1 imm => some (.lh rd rs1 imm)
  | .lw, .I rd rs1 imm => some (.lw rd rs1 imm)
  | .ld, .I rd rs1 imm => some (.ld rd rs1 imm)
  | .sb, .S rs1 rs2 imm => some (.sb rs1 rs2 imm)
  | .sh, .S rs1 rs2 imm => some (.sh rs1 rs2 imm)
  | .sw, .S rs1 rs2 imm => some (.sw rs1 rs2 imm)
  | .sd, .S rs1 rs2 imm => some (.sd rs1 rs2 imm)
  | .beq, .SB rs1 rs2 offset => some (.beq rs1 rs2 offset)
  | .bne, .SB rs1 rs2 offset => some (.bne rs1 rs2 offset)
  | .blt, .SB rs1 rs2 offset => some (.blt rs1 rs2 offset)
  | .bge, .SB rs1 rs2 offset => some (.bge rs1 rs2 offset)
  | .lui, .U rd imm => some (.lui rd imm)
  | .auipc, .U rd imm => some (.auipc rd imm)
  | .jal, .UJ rd offset => some (.jal rd offset)
  | _, _ => none

/-- The mnemonic of an instruction. -/
def Instr.mnemonic : Instr → Mnemonic
  | .add .. => .add
  | .sub .. => .sub
  | .sll .. => .sll
  | .slt .. => .slt
  | .xor .. => .xor
  | .srl .. => .srl
  | .sra .. => .sra
  | .or .. => .or
  | .and .. => .and
  | .mul .. => .mul
  | .div .. => .div
  | .rem .. => .rem
  | .addi .. => .addi
  | .andi .. => .andi
  | .ori .. => .ori
  | .lui .. => .lui
  | .auipc .. => .auipc
  | .jal .. => .jal
  | .jalr .. => .jalr
  | .beq .. => .beq
  | .bne .. => .bne
  | .blt .. => .blt
  | .bge .. => .bge
  | .lb .. => .lb
  | .lh .. => .lh
  | .lw .. => .lw
  | .ld .. => .ld
  | .sb .. => .sb
  | .sh .. => .sh
  | .sw .. => .sw
  | .sd .. => .sd

/-- The operands of an instruction. -/
def Instr.operands : Instr → Operands
  | .add rd rs1 rs2 | .sub rd rs1 rs2 | .sll rd rs1 rs2 | .slt rd rs1 rs2 | .xor rd rs1 rs2 | .srl rd rs1 rs2
  | .sra rd rs1 rs2 | .or rd rs1 rs2 | .and rd rs1 rs2 | .mul rd rs1 rs2 | .div rd rs1 rs2 | .rem rd rs1 rs2 =>
    .R rd rs1 rs2
  | .addi rd rs1 imm | .andi rd rs1 imm | .ori rd rs1 imm | .jalr rd rs1 imm | .lb rd rs1 imm | .lh rd rs1 imm
  | .lw rd rs1 imm | .ld rd rs1 imm => .I rd rs1 imm
  | .sb rs1 rs2 imm | .sh rs1 rs2 imm | .sw rs1 rs2 imm | .sd rs1 rs2 imm => .S rs1 rs2 imm
  | .beq rs1 rs2 offset | .bne rs1 rs2 offset | .blt rs1 rs2 offset | .bge rs1 rs2 offset => .SB rs1 rs2 offset
  | .lui rd imm | .auipc rd imm => .U rd imm
  | .jal rd offset => .UJ rd offset

/-- The table row of an instruction. -/
def Instr.row (i : Instr) : TableRow := tableRow i.mnemonic

/-! ### The decoder (R96) -/

/-- The row's selector values are those of the word: a selector that the row lacks selects nothing. -/
def TableRow.selects (row : TableRow) (opcode : BitVec 7) (funct3 : BitVec 3) (funct7 : BitVec 7) : Bool :=
  row.opcode == opcode && row.funct3.all (· == funct3) && row.funct7.all (· == funct7)

/-- The mnemonic whose row the selector values of a word pick; the rows do not overlap. -/
def lookupMnemonic (opcode : BitVec 7) (funct3 : BitVec 3) (funct7 : BitVec 7) : Option Mnemonic :=
  Mnemonic.all.find? fun m => (tableRow m).selects opcode funct3 funct7

/-- The operands of a word of a format (R82 to R87, R104). -/
def operandsOf (format : Format) (w : Word) : Operands :=
  match format with
  | .R => .R (rdOf w) (rs1Of w) (rs2Of w)
  | .I => .I (rdOf w) (rs1Of w) (immIOf w)
  | .S => .S (rs1Of w) (rs2Of w) (immSOf w)
  | .SB => .SB (rs1Of w) (rs2Of w) (immSBOf w)
  | .U => .U (rdOf w) (immUOf w)
  | .UJ => .UJ (rdOf w) (immUJOf w)

/-- The instruction of a word: the table gives the mnemonic and its format, the format the operands. -/
def decodeWith (w : Word) : Option Instr :=
  match lookupMnemonic (opcodeOf w) (funct3Of w) (funct7Of w) with
  | some m => m.instr (operandsOf (tableRow m).format w)
  | none => none

/-- Why a word that is no instruction is not supported: no row has its opcode (R98), or some row has (R99). -/
def unsupported (w : Word) : DecodeError :=
  if opcodeTable.any (fun row => row.opcode == opcodeOf w) then
    .unsupportedFunction (opcodeOf w) (funct3Of w) (funct7Of w)
  else .unsupportedOpcode (opcodeOf w)

/-- Total on every 32-bit word; a word that is no instruction is rejected by name (R98, R99). -/
def decode (w : Word) : Except DecodeError Instr :=
  match decodeWith w with
  | some i => .ok i
  | none => .error (unsupported w)

/-- The instruction the decoder reads from a table word: bit 0 of `w` is bit 0 of the instruction word, and every
bit from `nbits` up is 0. An instruction here is one 32-bit word (R80), so a longer one is none. Log 18. -/
def decodeTableWord (nbits w : Nat) : Option Instr :=
  if nbits ≤ 32 then (decode (BitVec.ofNat 32 (w % 2 ^ nbits))).toOption else none

/-! ### The encoder (R82 to R87, R94): the fields in the order of each format line, bit 31 first -/

def encodeR (funct7 : BitVec 7) (rs2 rs1 : Reg) (funct3 : BitVec 3) (rd : Reg) (opcode : BitVec 7) : Word :=
  funct7 ++ rs2 ++ rs1 ++ funct3 ++ rd ++ opcode

def encodeI (imm : BitVec 12) (rs1 : Reg) (funct3 : BitVec 3) (rd : Reg) (opcode : BitVec 7) : Word :=
  imm ++ rs1 ++ funct3 ++ rd ++ opcode

def encodeS (imm : BitVec 12) (rs2 rs1 : Reg) (funct3 : BitVec 3) (opcode : BitVec 7) : Word :=
  imm.extractLsb' 5 7 ++ rs2 ++ rs1 ++ funct3 ++ imm.extractLsb' 0 5 ++ opcode

def encodeSB (offset : BitVec 13) (rs2 rs1 : Reg) (funct3 : BitVec 3) (opcode : BitVec 7) : Word :=
  offset.extractLsb' 12 1 ++ offset.extractLsb' 5 6 ++ rs2 ++ rs1 ++ funct3 ++ offset.extractLsb' 1 4
    ++ offset.extractLsb' 11 1 ++ opcode

def encodeU (imm : BitVec 20) (rd : Reg) (opcode : BitVec 7) : Word :=
  imm ++ rd ++ opcode

def encodeUJ (offset : BitVec 21) (rd : Reg) (opcode : BitVec 7) : Word :=
  offset.extractLsb' 20 1 ++ offset.extractLsb' 1 10 ++ offset.extractLsb' 11 1 ++ offset.extractLsb' 12 8 ++ rd
    ++ opcode

/-- A word from the selector values of a row and operands. A format that has a selector finds it in its rows. -/
def encodeWith (row : TableRow) : Operands → Word
  | .R rd rs1 rs2 => encodeR (row.funct7.getD 0) rs2 rs1 (row.funct3.getD 0) rd row.opcode
  | .I rd rs1 imm => encodeI imm rs1 (row.funct3.getD 0) rd row.opcode
  | .S rs1 rs2 imm => encodeS imm rs2 rs1 (row.funct3.getD 0) row.opcode
  | .SB rs1 rs2 offset => encodeSB offset rs2 rs1 (row.funct3.getD 0) row.opcode
  | .U rd imm => encodeU imm rd row.opcode
  | .UJ rd offset => encodeUJ offset rd row.opcode

/-- The word of an instruction. -/
def encode (i : Instr) : Word := encodeWith i.row i.operands

end Sys2Proof
end

