-- ==== Sys2Proof/Config.lean ====
section
/-! DEFINITION. The parameters of the hardware (00_scope.md R6): what is fixed for the machine and never
changes during a run (10_state.md R37), and the three parameters the spec leaves OPEN. -/

namespace Sys2Proof.Config

/-- PC_RESET, the reset vector (R6, 20_memory.md R61). -/
def pcReset : Word := 0x00000000

/-- SP_RESET, the reset value of x2 (R6, 10_state.md R36). -/
def spReset : Word := 0x7FFFFFDC

/-- CYCLE_CEILING, the safety ceiling of a run (R6, 60_exceptions.md R244). -/
def cycleCeiling : Nat := 5000

/-- HALT_WORD, the word whose fetch ends the run normally (R6, 30_encoding.md R100). -/
def haltWord : Word := 0x00000000

/-- SENTINEL, the end-of-text marker of a listing (R6, 70_reset_and_hazards.md R272). -/
def sentinel : Word := 0xDEADBEEF

/-- What a byte of data memory that nothing has written reads as (10_state.md R30). -/
def unlistedByte : Byte := 0x00

/-- The default of DATA_BASE (R6, D15). -/
def dataBaseDefault : Word := 0x10000000

/-- DATA_BASE, where the data lines of an assembled listing start. OPEN in the spec with the default above (R6, D15),
so it has no body. The hardware never uses it: it loads each data line at the address the line gives. Log 20. -/
opaque dataBase : Word

/-- SD_UPPER: the four bytes, lowest address in bits 7:0, that SD writes above the register's own four, as a
function of the register's value. OPEN in the spec (R6, 45_load_store.md R230, D8), so it has no body: a free
value. Log 1. -/
opaque sdUpper : Word → BitVec 32

/-- CEILING_SLACK: how many further cycles, 0, 1 or 2, another reading of "exceeds" allows before the ceiling
halt. OPEN in the spec (R6, D11, 93_implementation_defined.md U3), so it has no body: a free value. Log 2. -/
opaque ceilingSlack : Fin 3

end Sys2Proof.Config
end

