-- ==== Sys2Proof/Machine/State.lean ====
section
/-! DEFINITION. The state of the machine, the six items of 10_state.md R20, as plain data; the reasons a step can
stop; the state after reset (R36). -/

namespace Sys2Proof.Machine

/-- Why a run ended (60_exceptions.md R240, R242 to R244). -/
inductive HaltReason where
  /-- HALTED(normal): the fetched word was 0x00000000 (R242). -/
  | normal
  /-- HALTED(decode-error): the decoder does not support the fetched word (R243). -/
  | decodeError
  /-- HALTED(cycle-limit): the cycle counter exceeded the ceiling (R244). -/
  | cycleLimit
  deriving DecidableEq, Repr

/-- The run state (10_state.md R28). -/
inductive RunState where
  | running
  | halted (reason : HaltReason)
  deriving DecidableEq, Repr

/-- Data memory (R30): bytes by address, in canonical form (`Memory.wf`). -/
abbrev Memory := List Host.Cell

/-- Canonical form: addresses strictly rising and inside the 32-bit space, no entry equal to what an unlisted
address reads as, so that equal memories are equal data. -/
abbrev Memory.wf (m : Memory) : Prop :=
  m.Pairwise (fun c d => c.1 < d.1) ∧ ∀ c ∈ m, c.1 < 2 ^ 32 ∧ c.2 ≠ Config.unlistedByte

/-- The instruction map (R29): words by exact address. An address with no entry is a fact about the map, so an
explicit zero word stays listed. -/
abbrev InstrMap := List (Nat × Word)

/-- Canonical form: addresses strictly rising and inside the 32-bit space. -/
abbrev InstrMap.wf (m : InstrMap) : Prop :=
  m.Pairwise (fun c d => c.1 < d.1) ∧ ∀ c ∈ m, c.1 < 2 ^ 32

/-- Why a step answers no next state. -/
inductive Fault where
  /-- Raised by `step` on a state whose `run` is already HALTED: a halted core performs no cycle (R28). Safe: the
  spec gives such a state no successor. The halt itself is a next state, with `run` set (60_exceptions.md R241). -/
  | halted (reason : HaltReason)
  deriving DecidableEq, Repr

/-- Why an instruction has no meaning in the model. -/
inductive Refusal where
  /-- Raised by a refused arm of `exec` only: the instruction of this mnemonic is not modelled. Safe. No arm of
  this model raises it. -/
  | notModelled (mnemonic : String)
  deriving DecidableEq, Repr

/-- The complete state (R20). -/
structure State where
  /-- `x[0..31]`, through the accessors of Ops.lean only (R21, R22). -/
  regs : Vector Word 32
  /-- The program counter (R24). -/
  pc : Word
  /-- Data memory `MEM` (R30). -/
  mem : Memory
  /-- The instruction map `IMEM` (R29). -/
  imem : InstrMap
  /-- The cycle counter, a natural number (R27, D20). -/
  cycle : Nat
  /-- The run state (R28). -/
  run : RunState
  deriving DecidableEq, Repr

/-- The state after reset with no image loaded (10_state.md R36, 70_reset_and_hazards.md R271 steps 1 to 3). How an
image comes to be in it: Load.lean, log 6. -/
def State.reset : State where
  regs := (Vector.replicate 32 0).set 2 Config.spReset
  pc := Config.pcReset
  mem := []
  imem := []
  cycle := 0
  run := .running

end Sys2Proof.Machine
end

