-- ==== Sys2Proof/Machine/Ops.lean ====
section
/-! DEFINITION. The named operations over registers and the two memories (00_scope.md R9), and the one abnormal
outcome, raising a halt (60_exceptions.md R241). The hardware has no exception entry and no return from one
(R240, R249, R250). -/

namespace Sys2Proof.Machine

/-! ### Tables: lists of (key, value) with rising keys -/

/-- The value listed under key `k`. -/
def Table.lookup {α : Type} : List (Nat × α) → Nat → Option α
  | [], _ => none
  | (j, w) :: m, k => if k = j then some w else Table.lookup m k

/-- The table with every entry of key `k` taken out. -/
def Table.erase {α : Type} (m : List (Nat × α)) (k : Nat) : List (Nat × α) :=
  m.filter fun c => c.1 != k

/-- The table with `v` (if it is a value) listed under `k`, before the first greater key. -/
def Table.place {α : Type} : List (Nat × α) → Nat → Option α → List (Nat × α)
  | [], k, v => (v.map fun x => (k, x)).toList
  | (j, w) :: m, k, v => if k < j then (v.map fun x => (k, x)).toList ++ (j, w) :: m else (j, w) :: Table.place m k v

/-- The table with exactly `v` under key `k`: an entry, or none. -/
def Table.put {α : Type} (m : List (Nat × α)) (k : Nat) (v : Option α) : List (Nat × α) :=
  Table.place (Table.erase m k) k v

/-! ### Data memory -/

/-- The byte at one address; an address nothing has written reads as zero (10_state.md R30). -/
def Memory.byteAt (m : Memory) (a : Word) : Byte :=
  (Table.lookup m a.toNat).getD Config.unlistedByte

/-- The memory with one byte replaced. Writing what an unlisted address reads as removes the entry. -/
def Memory.setByte (m : Memory) (a : Word) (v : Byte) : Memory :=
  Table.put m a.toNat (if v = Config.unlistedByte then none else some v)

/-- `MemRead(a, n)`: the bytes at `a` .. `a + n-1`, addresses modulo 2^32, the one at the lowest address in bits 7:0
(20_memory.md R51, R53). -/
def Memory.load (m : Memory) (a : Word) : (n : Nat) → BitVec (8 * n)
  | 0 => 0
  | n + 1 => (m.byteAt (a + BitVec.ofNat 32 n) ++ m.load a n).cast (by omega)

/-- `MemWrite(a, n, v)`: byte i of `v` to address `a + i` modulo 2^32, for i below n (20_memory.md R54). -/
def Memory.store {w : Nat} (m : Memory) (a : Word) (v : BitVec w) : Nat → Memory
  | 0 => m
  | n + 1 => (m.store a v n).setByte (a + BitVec.ofNat 32 n) (v.extractLsb' (8 * n) 8)

/-! ### The instruction map -/

/-- The entry at exactly this address, if there is one (10_state.md R29). -/
def InstrMap.entry (m : InstrMap) (a : Word) : Option Word :=
  Table.lookup m a.toNat

/-- The map with one entry set; used by the image load only. -/
def InstrMap.setEntry (m : InstrMap) (a : Word) (w : Word) : InstrMap :=
  Table.put m a.toNat (some w)

/-- `IFetch(a)`: the entry at exactly `a`, or the all-zero word (20_memory.md R56). -/
def InstrMap.fetch (m : InstrMap) (a : Word) : Word :=
  (m.entry a).getD 0x00000000

/-! ### Registers -/

/-- `x[r]`: register 0 always reads zero (10_state.md R21; log 15). -/
def State.reg (s : State) (r : Reg) : Word :=
  if r = 0 then 0 else s.regs[r.toNat]

/-- `x[r] <- v`: a write to register 0 is discarded (R22). -/
def State.setReg (s : State) (r : Reg) (v : Word) : State :=
  if r = 0 then s else { s with regs := s.regs.set r.toNat v }

/-! ### The end of a cycle -/

/-- The address of the next instruction in sequence, also the return value of JAL and JALR: `pc + 4` modulo 2^32
(40_decode_control.md R138). -/
def State.pcSeq (s : State) : Word := s.pc + 4

/-- `pc <- target` (10_state.md R25). -/
def State.goto (s : State) (target : Word) : State := { s with pc := target }

/-- Write-back, then the pc update: the end of every cycle that writes a register (40_decode_control.md R140). -/
def State.writeBack (s : State) (rd : Reg) (v target : Word) : State :=
  (s.setReg rd v).goto target

/-- The end of a cycle that stores: `MemWrite`, then the sequential pc (R139, R138). -/
def State.storeBytes {w : Nat} (s : State) (ea : Word) (n : Nat) (v : BitVec w) : State :=
  { s with mem := s.mem.store ea v n, pc := s.pcSeq }

/-- `raise Halt(reason)`: the run state changes and nothing else (60_exceptions.md R241). The cycle counter keeps
the value the start of the cycle gave it. -/
def State.raiseHalt (s : State) (reason : HaltReason) : State :=
  { s with run := .halted reason }

/-- The start of a cycle: the counter goes up by one, before fetch (10_state.md R27, D11). -/
def State.tick (s : State) : State :=
  { s with cycle := s.cycle + 1 }

/-- The ceiling test on the incremented counter (60_exceptions.md R244, D11): it exceeds CYCLE_CEILING, and by more
than the OPEN slack. -/
def ceilingExceeded (cycle : Nat) : Bool :=
  decide (Config.cycleCeiling < cycle) && decide (Config.cycleCeiling + Config.ceilingSlack.val < cycle)

end Sys2Proof.Machine
end

