-- ==== Sys2Proof/Machine/Operands.lean ====
section
/-! DEFINITION. Operand forms: the five immediates as 32-bit values (30_encoding.md R88 to R92), the shift amount, the
effective address, branch and jump targets, and the width rules of loads and stores (45_load_store.md R229, R230). -/

namespace Sys2Proof.Machine

/-- I- and S-immediate: the 12-bit field sign-extended (R88, R89). -/
def imm12 (imm : BitVec 12) : Word := imm.signExtend 32

/-- SB-immediate: the 13-bit offset sign-extended (R90). -/
def imm13 (offset : BitVec 13) : Word := offset.signExtend 32

/-- U-immediate: `{imm20, 12'b0}` (R91, D9; log 12). -/
def immUpper (imm : BitVec 20) : Word := imm ++ 0#12

/-- UJ-immediate: the 21-bit offset sign-extended (R92). -/
def imm21 (offset : BitVec 21) : Word := offset.signExtend 32

/-- `op_b[4:0]`: "shift amounts are masked to 5 bits" (40_decode_control.md R136). -/
def shiftAmount (v : Word) : Nat := (v.extractLsb' 0 5).toNat

/-- `ea = x[rs1] + imm` modulo 2^32 (20_memory.md R52). -/
def State.effectiveAddress (s : State) (rs1 : Reg) (imm : BitVec 12) : Word := s.reg rs1 + imm12 imm

/-- The taken target of a branch: `pc + imm` (40_decode_control.md R138). -/
def State.branchTarget (s : State) (offset : BitVec 13) : Word := s.pc + imm13 offset

/-- The target of JAL: `pc + imm` (44_control_transfer.md R201). -/
def State.jalTarget (s : State) (offset : BitVec 21) : Word := s.pc + imm21 offset

/-- The target of JALR: `(x[rs1] + imm) & 0xFFFFFFFE` (R202). -/
def State.jalrTarget (s : State) (rs1 : Reg) (imm : BitVec 12) : Word := (s.reg rs1 + imm12 imm) &&& 0xFFFFFFFE

/-! ### LoadExtend(width, MemRead(ea, n)) (45_load_store.md R229) -/

/-- BYTE: `sext_8(v[7:0])` (D6; log 11). -/
def Memory.loadByte (m : Memory) (ea : Word) : Word := (m.load ea 1).signExtend 32

/-- HALF: `sext_16(v[15:0])` (D6; log 11). -/
def Memory.loadHalf (m : Memory) (ea : Word) : Word := (m.load ea 2).signExtend 32

/-- WORD: `v[31:0]`. -/
def Memory.loadWord (m : Memory) (ea : Word) : Word := (m.load ea 4).extractLsb' 0 32

/-- DOUBLE: eight bytes are read, `v[31:0]` is kept (D7; log 11). -/
def Memory.loadDouble (m : Memory) (ea : Word) : Word := (m.load ea 8).extractLsb' 0 32

/-! ### StoreData(width, r) (45_load_store.md R230) -/

/-- BYTE: `r[7:0]`. -/
def storeDataByte (r : Word) : BitVec 8 := r.extractLsb' 0 8

/-- HALF: `r[15:0]`. -/
def storeDataHalf (r : Word) : BitVec 16 := r.extractLsb' 0 16

/-- WORD: `r[31:0]`. -/
def storeDataWord (r : Word) : BitVec 32 := r

/-- DOUBLE: `{SD_UPPER(r), r[31:0]}`; the upper four bytes are the OPEN parameter (D8; log 1). -/
def storeDataDouble (r : Word) : BitVec 64 := Config.sdUpper r ++ r

end Sys2Proof.Machine
end

