-- ==== Sys2Proof/Machine/Flags.lean ====
section
/-! DEFINITION. The hardware has no flags (10_state.md R32): no condition codes, carry or overflow. What stands in
their place is the set of conditions that compare two register values directly (44_control_transfer.md R203) and
the end of a cycle that chooses its next pc by one. -/

namespace Sys2Proof.Machine

/-- BEQ: all 32 bits equal (R204). -/
def condEq (a b : Word) : Bool := a == b

/-- BNE (R205). -/
def condNe (a b : Word) : Bool := a != b

/-- BLT and SLT: `signed(a) < signed(b)` (R206, 41_integer_register.md R164, D4; log 10). -/
def condLt (a b : Word) : Bool := decide (a.toInt < b.toInt)

/-- BGE: `signed(a) >= signed(b)` (R207, D4; log 10). -/
def condGe (a b : Word) : Bool := decide (a.toInt ≥ b.toInt)

/-- The end of a branch: the taken target if the condition holds, otherwise `pc + 4` (40_decode_control.md R138). -/
def State.branch (s : State) (taken : Bool) (offset : BitVec 13) : State :=
  s.goto (if taken then s.branchTarget offset else s.pcSeq)

end Sys2Proof.Machine
end

