-- ==== Sys2Proof/Machine/IntReg.lean ====
section
/-! DEFINITION. Integer register-register instructions (41_integer_register.md R160 to R169). All arithmetic is modulo
2^32; nothing overflows visibly; no memory is accessed; the next pc is `pc + 4`. -/

namespace Sys2Proof.Machine

abbrev Result := Host.Outcome State Fault Refusal

/-- The template of R160 and R190: `x[rd] <- v`, `pc <- pc + 4`. Both sources have been read into `v`. -/
def State.writeResult (s : State) (rd : Reg) (v : Word) : Result :=
  .next (s.writeBack rd v s.pcSeq)

/-- ADD (R161). -/
def execAdd (rd rs1 rs2 : Reg) (s : State) : Result :=
  s.writeResult rd (s.reg rs1 + s.reg rs2)

/-- SUB (R162). -/
def execSub (rd rs1 rs2 : Reg) (s : State) : Result :=
  s.writeResult rd (s.reg rs1 - s.reg rs2)

/-- SLL (R163): zeros shifted in at bit 0. -/
def execSll (rd rs1 rs2 : Reg) (s : State) : Result :=
  s.writeResult rd (s.reg rs1 <<< shiftAmount (s.reg rs2))

/-- SLT (R164): a 32-bit 0 or 1. -/
def execSlt (rd rs1 rs2 : Reg) (s : State) : Result :=
  s.writeResult rd (if condLt (s.reg rs1) (s.reg rs2) then 1 else 0)

/-- XOR (R165). -/
def execXor (rd rs1 rs2 : Reg) (s : State) : Result :=
  s.writeResult rd (s.reg rs1 ^^^ s.reg rs2)

/-- SRL (R166): zeros shifted in at bit 31. -/
def execSrl (rd rs1 rs2 : Reg) (s : State) : Result :=
  s.writeResult rd (s.reg rs1 >>> shiftAmount (s.reg rs2))

/-- SRA (R167): copies of bit 31 shifted in. -/
def execSra (rd rs1 rs2 : Reg) (s : State) : Result :=
  s.writeResult rd ((s.reg rs1).sshiftRight (shiftAmount (s.reg rs2)))

/-- OR (R168). -/
def execOr (rd rs1 rs2 : Reg) (s : State) : Result :=
  s.writeResult rd (s.reg rs1 ||| s.reg rs2)

/-- AND (R169). -/
def execAnd (rd rs1 rs2 : Reg) (s : State) : Result :=
  s.writeResult rd (s.reg rs1 &&& s.reg rs2)

end Sys2Proof.Machine
end

