-- ==== Sys2Proof/Machine/Control.lean ====
section
/-! DEFINITION. Control transfer (44_control_transfer.md R200 to R209). No alignment is checked (R208, D14), there is no
delay slot, and each instruction completes whatever stands at its target. -/

namespace Sys2Proof.Machine

/-- JAL (R201): link value and target are both computed from the pc of the JAL. -/
def execJal (rd : Reg) (offset : BitVec 21) (s : State) : Result :=
  .next (s.writeBack rd s.pcSeq (s.jalTarget offset))

/-- JALR (R202): the target reads `x[rs1]` before `x[rd]` is written; bit 0 is cleared, bit 1 kept. -/
def execJalr (rd rs1 : Reg) (imm : BitVec 12) (s : State) : Result :=
  .next (s.writeBack rd s.pcSeq (s.jalrTarget rs1 imm))

/-- BEQ (R204). -/
def execBeq (rs1 rs2 : Reg) (offset : BitVec 13) (s : State) : Result :=
  .next (s.branch (condEq (s.reg rs1) (s.reg rs2)) offset)

/-- BNE (R205). -/
def execBne (rs1 rs2 : Reg) (offset : BitVec 13) (s : State) : Result :=
  .next (s.branch (condNe (s.reg rs1) (s.reg rs2)) offset)

/-- BLT (R206). -/
def execBlt (rs1 rs2 : Reg) (offset : BitVec 13) (s : State) : Result :=
  .next (s.branch (condLt (s.reg rs1) (s.reg rs2)) offset)

/-- BGE (R207). -/
def execBge (rs1 rs2 : Reg) (offset : BitVec 13) (s : State) : Result :=
  .next (s.branch (condGe (s.reg rs1) (s.reg rs2)) offset)

end Sys2Proof.Machine
end

