-- ==== Sys2Proof/Machine/IntImm.lean ====
section
/-! DEFINITION. Integer register-immediate and upper-immediate instructions (42_integer_immediate_upper.md R180 to
R185). The I-immediate is sign-extended for the logical members too. -/

namespace Sys2Proof.Machine

/-- ADDI (R181). -/
def execAddi (rd rs1 : Reg) (imm : BitVec 12) (s : State) : Result :=
  s.writeResult rd (s.reg rs1 + imm12 imm)

/-- ANDI (R182). -/
def execAndi (rd rs1 : Reg) (imm : BitVec 12) (s : State) : Result :=
  s.writeResult rd (s.reg rs1 &&& imm12 imm)

/-- ORI (R183). -/
def execOri (rd rs1 : Reg) (imm : BitVec 12) (s : State) : Result :=
  s.writeResult rd (s.reg rs1 ||| imm12 imm)

/-- LUI (R184, D9): no register is read. -/
def execLui (rd : Reg) (imm : BitVec 20) (s : State) : Result :=
  s.writeResult rd (immUpper imm)

/-- AUIPC (R185, D9): the pc is the address of the AUIPC itself. -/
def execAuipc (rd : Reg) (imm : BitVec 20) (s : State) : Result :=
  s.writeResult rd (s.pc + immUpper imm)

end Sys2Proof.Machine
end

