-- ==== Sys2Proof/Machine/LoadStore.lean ====
section
/-! DEFINITION. Loads and stores (45_load_store.md R220 to R231). One access each, any alignment (20_memory.md R58), no
address faults (R62), the base register is not modified, and a store changes `MEM` only (R66). -/

namespace Sys2Proof.Machine

/-- LB (R221). -/
def execLb (rd rs1 : Reg) (imm : BitVec 12) (s : State) : Result :=
  s.writeResult rd (s.mem.loadByte (s.effectiveAddress rs1 imm))

/-- LH (R222). -/
def execLh (rd rs1 : Reg) (imm : BitVec 12) (s : State) : Result :=
  s.writeResult rd (s.mem.loadHalf (s.effectiveAddress rs1 imm))

/-- LW (R223). -/
def execLw (rd rs1 : Reg) (imm : BitVec 12) (s : State) : Result :=
  s.writeResult rd (s.mem.loadWord (s.effectiveAddress rs1 imm))

/-- LD (R224). -/
def execLd (rd rs1 : Reg) (imm : BitVec 12) (s : State) : Result :=
  s.writeResult rd (s.mem.loadDouble (s.effectiveAddress rs1 imm))

/-- SB (R225). -/
def execSb (rs1 rs2 : Reg) (imm : BitVec 12) (s : State) : Result :=
  .next (s.storeBytes (s.effectiveAddress rs1 imm) 1 (storeDataByte (s.reg rs2)))

/-- SH (R226). -/
def execSh (rs1 rs2 : Reg) (imm : BitVec 12) (s : State) : Result :=
  .next (s.storeBytes (s.effectiveAddress rs1 imm) 2 (storeDataHalf (s.reg rs2)))

/-- SW (R227). -/
def execSw (rs1 rs2 : Reg) (imm : BitVec 12) (s : State) : Result :=
  .next (s.storeBytes (s.effectiveAddress rs1 imm) 4 (storeDataWord (s.reg rs2)))

/-- SD (R228): all eight bytes are written. -/
def execSd (rs1 rs2 : Reg) (imm : BitVec 12) (s : State) : Result :=
  .next (s.storeBytes (s.effectiveAddress rs1 imm) 8 (storeDataDouble (s.reg rs2)))

end Sys2Proof.Machine
end

