-- ==== Sys2Proof/Machine/MulDiv.lean ====
section
/-! DEFINITION. Multiply, divide and remainder (43_muldiv.md R190 to R193). A zero divisor gives 0 and traps nothing
(90_conflicts.md C2). Signedness and rounding are decisions D4 and D5 (log 10). -/

namespace Sys2Proof.Machine

/-- The signed quotient rounded toward zero (R192). -/
def signedQuotient (a b : Word) : Word :=
  if b = 0 then 0
  else if a.toInt = -2 ^ 31 ∧ b.toInt = -1 then 0x80000000
  else BitVec.ofInt 32 (a.toInt.tdiv b.toInt)

/-- The signed remainder `a - b * trunc(a / b)` (R193). -/
def signedRemainder (a b : Word) : Word :=
  if b = 0 then 0
  else if a.toInt = -2 ^ 31 ∧ b.toInt = -1 then 0
  else BitVec.ofInt 32 (a.toInt - b.toInt * a.toInt.tdiv b.toInt)

/-- MUL (R191): the low 32 bits of the product. -/
def execMul (rd rs1 rs2 : Reg) (s : State) : Result :=
  s.writeResult rd (s.reg rs1 * s.reg rs2)

/-- DIV (R192). -/
def execDiv (rd rs1 rs2 : Reg) (s : State) : Result :=
  s.writeResult rd (signedQuotient (s.reg rs1) (s.reg rs2))

/-- REM (R193). -/
def execRem (rd rs1 rs2 : Reg) (s : State) : Result :=
  s.writeResult rd (signedRemainder (s.reg rs1) (s.reg rs2))

end Sys2Proof.Machine
end

