-- ==== Sys2Proof/Machine/Fetch.lean ====
section
/-! DEFINITION. The stages of one cycle before execute, as operations that Step.lean calls: the start of the cycle with
the ceiling test, fetch, decode (40_decode_control.md R131 to R133), in the order of 60_exceptions.md R245. -/

namespace Sys2Proof.Machine

/-- F: the word the instruction map gives at the pc (R132). -/
def State.fetchWord (s : State) : Word := s.imem.fetch s.pc

/-- D, and what follows: an unsupported word halts before execute, "no partial execution" (R133, 60_exceptions.md R243);
a supported one is executed. -/
def State.decodeAndExecute (s : State) (ir : Word) : Result :=
  match decode ir with
  | .error _ => .next (s.raiseHalt .decodeError)
  | .ok i => exec i s

/-- One `Cycle()` of a running core (R131): the counter, the ceiling test, fetch and the zero-word test, decode,
execute to write-back, each test ending the cycle (60_exceptions.md R245). -/
def State.runCycle (s : State) : Result :=
  let t := s.tick
  if ceilingExceeded t.cycle then .next (t.raiseHalt .cycleLimit)
  else if t.fetchWord = Config.haltWord then .next (t.raiseHalt .normal)
  else t.decodeAndExecute t.fetchWord

end Sys2Proof.Machine
end

