-- ==== Sys2Proof/Machine/Step.lean ====
section
/-! DEFINITION. One step of the machine: one architectural cycle of a running core (40_decode_control.md R131, R143). -/

namespace Sys2Proof.Machine

/-- A running core performs one cycle; a halted core performs none (10_state.md R28, log 3). -/
def step (s : State) : Host.Outcome State Fault Refusal :=
  match s.run with
  | .running => s.runCycle
  | .halted reason => .fault (.halted reason)

/-- `s` with a table word as the instruction-map entry at its pc, where the next fetch looks (20_memory.md R56).
Nothing else changes: fetch reads the instruction map only. Log 6. -/
def State.withFetchWord (s : State) (nbits w : Nat) : State :=
  { s with imem := s.imem.setEntry s.pc (BitVec.ofNat 32 (w % 2 ^ nbits)) }

end Sys2Proof.Machine
end

