-- ==== Sys2Proof/Machine/Datapath.lean ====
section
/-! DEFINITION. The other description the spec gives of an instruction: the control bundle the decoder produces
(40_decode_control.md R134, R137) driving one datapath through execute, memory access and write-back (R131, R135, R136,
R138 to R140). exec does not use it; that the two descriptions agree is a statement. Names are the spec's (D16).

A don't-care of R137 (a dash) is `none`. A value the spec says nothing reads (the ALU result of a branch or JAL, an
operand of a field the format lacks: R104, R136) is the argument `junk`: any value. Log 17. -/

namespace Sys2Proof.Machine

inductive OpASel where
  | rs1 | pc
  deriving DecidableEq, Repr

inductive OpBSel where
  | reg | imm
  deriving DecidableEq, Repr

/-- `ma_sel`, the memory-address source outside fetch's own use of the path (R134). -/
inductive MaSel where
  | pc | alu
  deriving DecidableEq, Repr

inductive WbSel where
  | alu | mem | ret
  deriving DecidableEq, Repr

/-- The access widths (20_memory.md R55). -/
inductive MemWidth where
  | byte | half | word | double
  deriving DecidableEq, Repr

/-- The control bundle (R134). -/
structure ControlBundle where
  aluOp : AluOp
  opASel : Option OpASel
  opBSel : OpBSel
  memRead : Bool
  memWrite : Bool
  memWidth : Option MemWidth
  wbSel : Option WbSel
  regWrite : Bool
  branchEn : Bool
  deriving DecidableEq, Repr

/-- `ma_sel` is ALU exactly when the memory stage makes an access (R134). -/
def ControlBundle.maSel (c : ControlBundle) : MaSel :=
  if c.memRead || c.memWrite then .alu else .pc

/-- The fields the decoder outputs; `none` where the format lacks the field (30_encoding.md R104). -/
structure DecodedFields where
  rd : Option Reg
  rs1 : Option Reg
  rs2 : Option Reg
  funct3 : Option (BitVec 3)
  funct7 : Option (BitVec 7)
  imm : Option Word
  deriving DecidableEq, Repr

/-! ### The rows of R137, by shape -/

def bundleReg (op : AluOp) : ControlBundle := ⟨op, some .rs1, .reg, false, false, none, some .alu, true, false⟩
def bundleImm (op : AluOp) : ControlBundle := ⟨op, some .rs1, .imm, false, false, none, some .alu, true, false⟩
def bundleLoad (w : MemWidth) : ControlBundle := ⟨.load, some .rs1, .imm, true, false, some w, some .mem, true, false⟩
def bundleStore (w : MemWidth) : ControlBundle := ⟨.store, some .rs1, .imm, false, true, some w, none, false, false⟩
def bundleBranch (op : AluOp) : ControlBundle := ⟨op, some .rs1, .reg, false, false, none, none, false, true⟩

/-- The control bundle of every instruction (R137). -/
def controlOf : Instr → ControlBundle
  | .add .. => bundleReg .add
  | .sub .. => bundleReg .sub
  | .sll .. => bundleReg .sll
  | .slt .. => bundleReg .slt
  | .xor .. => bundleReg .xor
  | .srl .. => bundleReg .srl
  | .sra .. => bundleReg .sra
  | .or .. => bundleReg .or
  | .and .. => bundleReg .and
  | .mul .. => bundleReg .mul
  | .div .. => bundleReg .div
  | .rem .. => bundleReg .rem
  | .addi .. => bundleImm .add
  | .andi .. => bundleImm .and
  | .ori .. => bundleImm .or
  | .lui .. => ⟨.lui, none, .imm, false, false, none, some .alu, true, false⟩
  | .auipc .. => ⟨.auipc, some .pc, .imm, false, false, none, some .alu, true, false⟩
  | .jal .. => ⟨.jal, none, .imm, false, false, none, some .ret, true, true⟩
  | .jalr .. => ⟨.jalr, some .rs1, .imm, false, false, none, some .ret, true, true⟩
  | .beq .. => bundleBranch .beq
  | .bne .. => bundleBranch .bne
  | .blt .. => bundleBranch .blt
  | .bge .. => bundleBranch .bge
  | .lb .. => bundleLoad .byte
  | .lh .. => bundleLoad .half
  | .lw .. => bundleLoad .word
  | .ld .. => bundleLoad .double
  | .sb .. => bundleStore .byte
  | .sh .. => bundleStore .half
  | .sw .. => bundleStore .word
  | .sd .. => bundleStore .double

/-- The decoded fields of every instruction: the operands of its format, the immediate already extended, and the
selectors of its table row (30_encoding.md R104). -/
def fieldsOf (i : Instr) : DecodedFields :=
  let f3 := i.row.funct3
  let f7 := i.row.funct7
  match i.operands with
  | .R rd rs1 rs2 => ⟨some rd, some rs1, some rs2, f3, f7, none⟩
  | .I rd rs1 imm => ⟨some rd, some rs1, none, f3, f7, some (imm12 imm)⟩
  | .S rs1 rs2 imm => ⟨none, some rs1, some rs2, f3, f7, some (imm12 imm)⟩
  | .SB rs1 rs2 offset => ⟨none, some rs1, some rs2, f3, f7, some (imm13 offset)⟩
  | .U rd imm => ⟨some rd, none, none, f3, f7, some (immUpper imm)⟩
  | .UJ rd offset => ⟨some rd, none, none, f3, f7, some (imm21 offset)⟩

/-! ### The stages -/

/-- The signed quotient of the DIV tag, 0 when `op_b = 0` (R136). -/
def aluDiv (a b : Word) : Word := if b = 0 then 0 else a.sdiv b

/-- The signed remainder of the REM tag, 0 when `op_b = 0` (R136). -/
def aluRem (a b : Word) : Word := if b = 0 then 0 else a.srem b

/-- What each operation tag computes: the ALU result and the branch or jump condition (R136). -/
def alu (op : AluOp) (a b junk : Word) : Word × Bool :=
  let sh := shiftAmount b
  match op with
  | .add => (a + b, false)
  | .sub => (a - b, false)
  | .sll => (a <<< sh, false)
  | .slt => (if a.slt b then 1 else 0, false)
  | .xor => (a ^^^ b, false)
  | .srl => (a >>> sh, false)
  | .sra => (a.sshiftRight sh, false)
  | .or => (a ||| b, false)
  | .and => (a &&& b, false)
  | .mul => (a * b, false)
  | .div => (aluDiv a b, false)
  | .rem => (aluRem a b, false)
  | .load => (a + b, false)
  | .store => (a + b, false)
  | .lui => (b, false)
  | .auipc => (a + b, false)
  | .jal => (junk, true)
  | .jalr => (a + b, true)
  | .beq => (junk, a == b)
  | .bne => (junk, a != b)
  | .blt => (junk, a.slt b)
  | .bge => (junk, b.sle a)

/-- `LoadExtend(width, MemRead(addr, bytes(width)))` (45_load_store.md R229). -/
def readMemory (width : MemWidth) (m : Memory) (addr : Word) : Word :=
  match width with
  | .byte => m.loadByte addr
  | .half => m.loadHalf addr
  | .word => m.loadWord addr
  | .double => m.loadDouble addr

/-- `MemWrite(addr, bytes(width), StoreData(width, v))` (45_load_store.md R230). -/
def writeMemory (width : MemWidth) (m : Memory) (addr v : Word) : Memory :=
  match width with
  | .byte => m.store addr (storeDataByte v) 1
  | .half => m.store addr (storeDataHalf v) 2
  | .word => m.store addr (storeDataWord v) 4
  | .double => m.store addr (storeDataDouble v) 8

/-- The D (register read), X, M and W stages of R131 for one decoded instruction: bundle and fields drive the
datapath. `junk` stands wherever the spec says nothing reads the value. -/
def datapath (junk : Word) (c : ControlBundle) (f : DecodedFields) (s : State) : State :=
  let ra := (f.rs1.map s.reg).getD junk
  let rb := (f.rs2.map s.reg).getD junk
  let imm := f.imm.getD junk
  let opA := if c.opASel = some .pc then s.pc else ra
  let opB := if c.opBSel = .imm then imm else rb
  let x := alu c.aluOp opA opB junk
  let pcSeq := s.pc + 4
  let pcRet := s.pc + 4
  let pcTarget := if c.aluOp = .jalr then x.1 &&& 0xFFFFFFFE else s.pc + imm
  let nextPc := if c.branchEn && x.2 then pcTarget else pcSeq
  let mdr := if c.memRead then (c.memWidth.map fun w => readMemory w s.mem x.1).getD junk else junk
  let mem := if c.memWrite then (c.memWidth.map fun w => writeMemory w s.mem x.1 rb).getD s.mem else s.mem
  let wb := match c.wbSel with
    | some .alu => x.1
    | some .mem => mdr
    | some .ret => pcRet
    | none => junk
  let t := { s with mem := mem }
  let t := if c.regWrite then (f.rd.map fun rd => t.setReg rd wb).getD t else t
  t.goto nextPc

end Sys2Proof.Machine
end

