-- ==== Sys2Proof/Machine/Load.lean ====
section
/-! DEFINITION. The image load, step 4 of reset (70_reset_and_hazards.md R271 to R274): the lines of a listing
(30_encoding.md R113, R114) to the contents of the two memories. Log 6, log 7. -/

namespace Sys2Proof.Machine

/-- What the loader takes from a line: the two 0x-prefixed hex numbers at its start (R114, R272). -/
structure Line where
  addr : Word
  num : Word
  deriving DecidableEq, Repr

/-- The loader between two lines: the memories so far, and whether the sentinel line has been read. -/
structure Loader where
  imem : InstrMap
  mem : Memory
  dataPhase : Bool
  deriving DecidableEq, Repr

/-- Both memories are empty before the load (R271 step 3, D22), and the first phase is TEXT. -/
def Loader.start : Loader := ⟨[], [], false⟩

/-- One line (R272). A line of the data phase whose number is no byte cannot be parsed and is refused (R273 f). -/
def Loader.line (l : Loader) (x : Line) : Option Loader :=
  if l.dataPhase then
    if x.num.toNat < 256 then some { l with mem := l.mem.setByte x.addr (x.num.extractLsb' 0 8) } else none
  else if x.num = Config.sentinel then some { l with dataPhase := true }
  else some { l with imem := l.imem.setEntry x.addr x.num, mem := l.mem.store x.addr x.num 4 }

/-- Every line of the listing, in order. -/
def Loader.lines (l : Loader) : List Line → Option Loader
  | [] => some l
  | x :: xs =>
    match l.line x with
    | some l' => l'.lines xs
    | none => none

/-- The state in which the first cycle of a run starts: reset, then the image load. -/
def State.boot (listing : List Line) : Option State :=
  (Loader.start.lines listing).map fun l => { State.reset with imem := l.imem, mem := l.mem }

/-! ### The text of a line. Any number of hex digits in either case (91_not_in_source.md N12); everything after the
second number is ignored when a space or the comma separates it (R114). -/

def hexDigit (c : Char) : Option Nat :=
  if '0' ≤ c ∧ c ≤ '9' then some (c.toNat - '0'.toNat)
  else if 'a' ≤ c ∧ c ≤ 'f' then some (c.toNat - 'a'.toNat + 10)
  else if 'A' ≤ c ∧ c ≤ 'F' then some (c.toNat - 'A'.toNat + 10)
  else none

/-- The number the leading hex digits spell, after the digits already read gave `acc`, and the rest of the text. -/
def hexDigits (acc : Nat) : List Char → Nat × List Char
  | [] => (acc, [])
  | c :: cs =>
    match hexDigit c with
    | some d => hexDigits (16 * acc + d) cs
    | none => (acc, c :: cs)

/-- A 0x-prefixed hex number of at least one digit and at most 32 bits. -/
def hexNumber (cs : List Char) : Option (Word × List Char) :=
  match cs with
  | '0' :: 'x' :: d :: rest =>
    match hexDigit d with
    | some v =>
      let r := hexDigits v rest
      if r.1 < 2 ^ 32 then some (BitVec.ofNat 32 r.1, r.2) else none
    | none => none
  | _ => none

def dropSpaces : List Char → List Char
  | ' ' :: cs => dropSpaces cs
  | cs => cs

/-- What may follow the second number: nothing, a space, the comma, or a carriage return. -/
def endsNumber : List Char → Bool
  | [] => true
  | c :: _ => c == ' ' || c == ',' || c == '\r'

/-- One line of the listing's text; `none` where it cannot be parsed (R273 f). -/
def parseLine (cs : List Char) : Option Line :=
  match hexNumber cs with
  | some (a, ' ' :: rest) =>
    match hexNumber (dropSpaces rest) with
    | some (n, tail) => if endsNumber tail then some ⟨a, n⟩ else none
    | none => none
  | _ => none

/-- The state a listing's text boots to, or `none`: the listing is refused (R273 f, D19). -/
def State.bootText (text : List String) : Option State :=
  match text.mapM fun l => parseLine l.toList with
  | some ls => State.boot ls
  | none => none

end Sys2Proof.Machine
end

