-- ==== Sys2Proof/Machine/Observe.lean ====
section
/-! DEFINITION. What the environment gets (70_reset_and_hazards.md R281): after HALTED, the reason, the 32 registers in
order and the memory; for a decode error the pc and the offending word (60_exceptions.md R243, R246, D23; log 19).
While the core runs there is no output. -/

namespace Sys2Proof.Machine

/-- The report of the end of a run. -/
structure FinalReport where
  reason : HaltReason
  /-- `x[0]`, `x[1]`, .., `x[31]`. -/
  regs : List Word
  /-- Data memory; as a total function it is `Memory.byteAt`. -/
  mem : Memory
  /-- For a decode error, the pc and the word at it. -/
  offending : Option (Word × Word)
  deriving DecidableEq, Repr

def State.finalReport (s : State) : Option FinalReport :=
  match s.run with
  | .running => none
  | .halted reason =>
    some
      { reason := reason
        regs := (List.range 32).map fun k => s.reg (BitVec.ofNat 5 k)
        mem := s.mem
        offending := if reason = .decodeError then some (s.pc, s.fetchWord) else none }

end Sys2Proof.Machine
end

