-- ==== Sys2Proof/Safety.lean ====
section
/-! DEFINITION. What counts as a good state and a safe run, in the terms statements use. -/

namespace Sys2Proof.Machine

/-- The invariant of a run: both memories in canonical form; the cell of the hardwired register still zero
(10_state.md R21); the pc even (R26); the cycle counter never past the cycle that the ceiling halts, and a running core
never past the ceiling (R27, 60_exceptions.md R244). -/
structure State.Inv (s : State) : Prop where
  memWf : Memory.wf s.mem
  imemWf : InstrMap.wf s.imem
  zeroCell : s.regs[0] = 0
  pcEven : s.pc.getLsbD 0 = false
  cycleBound : s.cycle ≤ Config.cycleCeiling + Config.ceilingSlack.val + 1
  runningBound : s.run = .running → s.cycle ≤ Config.cycleCeiling + Config.ceilingSlack.val

/-- The run has not ended in an error: of the three halts only HALTED(normal) is a successful end
(40_decode_control.md R144). -/
def State.noError (s : State) : Prop :=
  s.run ≠ .halted .decodeError ∧ s.run ≠ .halted .cycleLimit

/-- `n` steps, stopping at the first that answers no next state (40_decode_control.md R143). It is Host.Core.run of
Sys2Proof.core (Laws/Exec.lean). -/
def runFor : Nat → State → Host.Outcome State Fault Refusal
  | 0, s => .next s
  | n + 1, s =>
    match step s with
    | .next t => runFor n t
    | .fault r => .fault r
    | .refused r => .refused r

/-- `t` is reached from `s` in some number of steps, each answering a next state. -/
inductive Reaches : State → State → Prop where
  | refl (s : State) : Reaches s s
  | tail {s t u : State} : Reaches s t → step t = .next u → Reaches s u

/-- A safe run from `s`: no state it reaches has ended in an error. -/
def State.safe (s : State) : Prop := ∀ t, Reaches s t → t.noError

end Sys2Proof.Machine
end

