-- ==== Sys2Proof/Certificates/Slice0/Obligations.lean ====
section
/-! DEFINITION. The statements for the provers. Each says which rule of spec/ it formalises, or which section and which
decision it rests on. Results are given as arithmetic on Nat and Int or bit by bit, not as the model's own operation. -/

namespace Sys2Proof.Spec

open Sys2Proof.Machine

/-! ### The shapes of effects -/

/-- `i` completes from `s`: exec answers a next state, and that state has the property. -/
def Yields (i : Instr) (s : State) (P : State → Prop) : Prop :=
  ∃ t, exec i s = .next t ∧ P t

/-- What every instruction leaves alone: the instruction map, the cycle counter, the run state. -/
def KeepsRest (s t : State) : Prop :=
  t.imem = s.imem ∧ t.cycle = s.cycle ∧ t.run = s.run

/-- The whole effect of writing `v` to `rd` and going to `next`: x0 still reads zero (so a write to x0 is discarded),
`rd` reads `v`, every other register and every byte of memory is unchanged. -/
def WritesReg (s t : State) (rd : Reg) (v next : Word) : Prop :=
  (∀ r, t.reg r = if r = 0 then 0 else if r = rd then v else s.reg r) ∧ t.pc = next ∧
  (∀ a, t.mem.byteAt a = s.mem.byteAt a) ∧ KeepsRest s t

/-- The whole effect of an instruction that only moves the pc. -/
def OnlyMovesPc (s t : State) : Prop :=
  (∀ r, t.reg r = s.reg r) ∧ (∀ a, t.mem.byteAt a = s.mem.byteAt a) ∧ KeepsRest s t

/-- The whole effect of a store of `n` bytes at `ea` (addresses modulo 2^32): byte i of the access holds `byte i`,
every address outside the access reads as before, no register changes, the pc goes to `pc + 4`. -/
def StoresBytes (s t : State) (ea : Word) (n : Nat) (byte : Nat → Byte) : Prop :=
  (∀ i < n, t.mem.byteAt (ea + BitVec.ofNat 32 i) = byte i) ∧
  (∀ a, n ≤ (a - ea).toNat → t.mem.byteAt a = s.mem.byteAt a) ∧
  (∀ r, t.reg r = s.reg r) ∧ t.pc = s.pc + 4 ∧ KeepsRest s t

/-- `a` is the address `base + d` modulo 2^32. -/
def IsAddr (a base : Word) (d : Int) : Prop :=
  (a.toNat : Int) = ((base.toNat : Int) + d) % 2 ^ 32

/-- The ceiling test of the next cycle passes: the incremented counter is at most the ceiling plus the OPEN slack. -/
def BelowCeiling (s : State) : Prop :=
  s.cycle + 1 ≤ Config.cycleCeiling + Config.ceilingSlack.val

/-- The state of a halting cycle: the counter incremented, the run state set, nothing else changed. -/
def haltedState (s : State) (r : HaltReason) : State :=
  { s with cycle := s.cycle + 1, run := .halted r }

/-- The nine opcodes (30_encoding.md R96). -/
def supportedOpcodes : List (BitVec 7) :=
  [0b0110011, 0b0010011, 0b0000011, 0b1100111, 0b0100011, 0b1100011, 0b0110111, 0b0010111, 0b1101111]

/-- The register an instruction names as its destination; stores and branches have none (10_state.md R22). -/
def destination : Instr → Option Reg
  | .add rd _ _ | .sub rd _ _ | .sll rd _ _ | .slt rd _ _ | .xor rd _ _ | .srl rd _ _ | .sra rd _ _ | .or rd _ _
  | .and rd _ _ | .mul rd _ _ | .div rd _ _ | .rem rd _ _ | .addi rd _ _ | .andi rd _ _ | .ori rd _ _
  | .lui rd _ | .auipc rd _ | .jal rd _ | .jalr rd _ _ | .lb rd _ _ | .lh rd _ _ | .lw rd _ _ | .ld rd _ _ => some rd
  | .beq .. | .bne .. | .blt .. | .bge .. | .sb .. | .sh .. | .sw .. | .sd .. => none

/-- The instruction with another destination register; one that has none is as it was. -/
def withDestination (r : Reg) : Instr → Instr
  | .add _ rs1 rs2 => .add r rs1 rs2
  | .sub _ rs1 rs2 => .sub r rs1 rs2
  | .sll _ rs1 rs2 => .sll r rs1 rs2
  | .slt _ rs1 rs2 => .slt r rs1 rs2
  | .xor _ rs1 rs2 => .xor r rs1 rs2
  | .srl _ rs1 rs2 => .srl r rs1 rs2
  | .sra _ rs1 rs2 => .sra r rs1 rs2
  | .or _ rs1 rs2 => .or r rs1 rs2
  | .and _ rs1 rs2 => .and r rs1 rs2
  | .mul _ rs1 rs2 => .mul r rs1 rs2
  | .div _ rs1 rs2 => .div r rs1 rs2
  | .rem _ rs1 rs2 => .rem r rs1 rs2
  | .addi _ rs1 imm => .addi r rs1 imm
  | .andi _ rs1 imm => .andi r rs1 imm
  | .ori _ rs1 imm => .ori r rs1 imm
  | .jalr _ rs1 imm => .jalr r rs1 imm
  | .lb _ rs1 imm => .lb r rs1 imm
  | .lh _ rs1 imm => .lh r rs1 imm
  | .lw _ rs1 imm => .lw r rs1 imm
  | .ld _ rs1 imm => .ld r rs1 imm
  | .lui _ imm => .lui r imm
  | .auipc _ imm => .auipc r imm
  | .jal _ offset => .jal r offset
  | .sb rs1 rs2 imm => .sb rs1 rs2 imm
  | .sh rs1 rs2 imm => .sh rs1 rs2 imm
  | .sw rs1 rs2 imm => .sw rs1 rs2 imm
  | .sd rs1 rs2 imm => .sd rs1 rs2 imm
  | .beq rs1 rs2 imm => .beq rs1 rs2 imm
  | .bne rs1 rs2 imm => .bne rs1 rs2 imm
  | .blt rs1 rs2 imm => .blt rs1 rs2 imm
  | .bge rs1 rs2 imm => .bge rs1 rs2 imm

/-- The bytes a load reads: how many, from where; `none` for every other instruction (20_memory.md R55, R71). -/
def loadAccess (s : State) : Instr → Option (Word × Nat)
  | .lb _ rs1 imm => some (s.effectiveAddress rs1 imm, 1)
  | .lh _ rs1 imm => some (s.effectiveAddress rs1 imm, 2)
  | .lw _ rs1 imm => some (s.effectiveAddress rs1 imm, 4)
  | .ld _ rs1 imm => some (s.effectiveAddress rs1 imm, 8)
  | _ => none

/-- The bytes a store writes; `none` for every other instruction. -/
def storeAccess (s : State) : Instr → Option (Word × Nat)
  | .sb rs1 _ imm => some (s.effectiveAddress rs1 imm, 1)
  | .sh rs1 _ imm => some (s.effectiveAddress rs1 imm, 2)
  | .sw rs1 _ imm => some (s.effectiveAddress rs1 imm, 4)
  | .sd rs1 _ imm => some (s.effectiveAddress rs1 imm, 8)
  | _ => none

/-! ### Where a word holds its operands (30_encoding.md R81 to R92) -/

/-- The register field `r` is the five bits of `w` from bit `lo` up. -/
def RegAt (w : Word) (lo : Nat) (r : Reg) : Prop := r.toNat = w.toNat / 2 ^ lo % 32

/-- The I-immediate is bits 31:20. -/
def ImmIAt (w : Word) (imm : BitVec 12) : Prop := ∀ k < 12, imm.getLsbD k = w.getLsbD (20 + k)

/-- The S-immediate: bits 11:5 at 31:25, bits 4:0 at 11:7. -/
def ImmSAt (w : Word) (imm : BitVec 12) : Prop :=
  ∀ k < 12, imm.getLsbD k = w.getLsbD (if k < 5 then 7 + k else 20 + k)

/-- The SB-immediate: bit 12 at 31, bits 10:5 at 30:25, bits 4:1 at 11:8, bit 11 at 7, bit 0 zero. -/
def ImmSBAt (w : Word) (offset : BitVec 13) : Prop :=
  offset.getLsbD 0 = false ∧
  ∀ k, 1 ≤ k → k < 13 →
    offset.getLsbD k = w.getLsbD (if k = 12 then 31 else if k = 11 then 7 else if k < 5 then 7 + k else 20 + k)

/-- The U-immediate is bits 31:12. -/
def ImmUAt (w : Word) (imm : BitVec 20) : Prop := ∀ k < 20, imm.getLsbD k = w.getLsbD (12 + k)

/-- The UJ-immediate: bit 20 at 31, bits 10:1 at 30:21, bit 11 at 20, bits 19:12 in place, bit 0 zero. -/
def ImmUJAt (w : Word) (offset : BitVec 21) : Prop :=
  offset.getLsbD 0 = false ∧
  ∀ k, 1 ≤ k → k < 21 →
    offset.getLsbD k = w.getLsbD (if k = 20 then 31 else if k = 11 then 20 else if k < 11 then 20 + k else k)

/-- The word holds the instruction's operands at the bits its format names. -/
def OperandsAt (w : Word) : Instr → Prop
  | .add rd rs1 rs2 | .sub rd rs1 rs2 | .sll rd rs1 rs2 | .slt rd rs1 rs2 | .xor rd rs1 rs2 | .srl rd rs1 rs2
  | .sra rd rs1 rs2 | .or rd rs1 rs2 | .and rd rs1 rs2 | .mul rd rs1 rs2 | .div rd rs1 rs2 | .rem rd rs1 rs2 =>
    RegAt w 7 rd ∧ RegAt w 15 rs1 ∧ RegAt w 20 rs2
  | .addi rd rs1 imm | .andi rd rs1 imm | .ori rd rs1 imm | .jalr rd rs1 imm | .lb rd rs1 imm
  | .lh rd rs1 imm | .lw rd rs1 imm | .ld rd rs1 imm =>
    RegAt w 7 rd ∧ RegAt w 15 rs1 ∧ ImmIAt w imm
  | .sb rs1 rs2 imm | .sh rs1 rs2 imm | .sw rs1 rs2 imm | .sd rs1 rs2 imm =>
    RegAt w 15 rs1 ∧ RegAt w 20 rs2 ∧ ImmSAt w imm
  | .beq rs1 rs2 offset | .bne rs1 rs2 offset | .blt rs1 rs2 offset | .bge rs1 rs2 offset =>
    RegAt w 15 rs1 ∧ RegAt w 20 rs2 ∧ ImmSBAt w offset
  | .lui rd imm | .auipc rd imm =>
    RegAt w 7 rd ∧ ImmUAt w imm
  | .jal rd offset => RegAt w 7 rd ∧ ImmUJAt w offset

/-- Bit k of the 32-bit immediate of a word of a format (R88 to R92): the bits of the I, S, SB and UJ immediates from
their sign up are all bit 31 of the word; SB and UJ have bit 0 zero; U has bits 11:0 zero. -/
def immBit (w : Word) (k : Nat) : Format → Bool
  | .R => false
  | .I => w.getLsbD (if k < 11 then 20 + k else 31)
  | .S => w.getLsbD (if k < 5 then 7 + k else if k < 11 then 20 + k else 31)
  | .SB => k != 0 && w.getLsbD (if k < 5 then 7 + k else if k < 11 then 20 + k else if k = 11 then 7 else 31)
  | .U => decide (12 ≤ k) && w.getLsbD k
  | .UJ => k != 0 && w.getLsbD (if k < 11 then 20 + k else if k = 11 then 20 else if k < 20 then k else 31)

/-- The format of an instruction (R81 to R87), written out. -/
def formatOf : Instr → Format
  | .add .. | .sub .. | .sll .. | .slt .. | .xor .. | .srl .. | .sra .. | .or .. | .and .. | .mul ..
  | .div .. | .rem .. => .R
  | .addi .. | .andi .. | .ori .. | .jalr .. | .lb .. | .lh .. | .lw .. | .ld .. => .I
  | .sb .. | .sh .. | .sw .. | .sd .. => .S
  | .beq .. | .bne .. | .blt .. | .bge .. => .SB
  | .lui .. | .auipc .. => .U
  | .jal .. => .UJ

/-! ### Listings -/

/-- The text lines of a listing: those before the sentinel. -/
def textLines (ls : List Line) : List Line := ls.takeWhile fun x => x.num ≠ Config.sentinel

/-- The data lines of a listing: those after the sentinel. -/
def dataLines (ls : List Line) : List Line := (ls.dropWhile fun x => x.num ≠ Config.sentinel).drop 1

/-- The entry of the instruction map at `a` after the load: the word of the last text line at exactly `a`. -/
def imageEntry (ls : List Line) (a : Word) : Option Word :=
  ((textLines ls).reverse.find? fun x => x.addr = a).map fun x => x.num

/-- The byte of data memory at `a` after the load: that of the last data line at `a`; else the byte of the last text
line whose four bytes cover `a`; else 0x00. -/
def imageByte (ls : List Line) (a : Word) : Byte :=
  match (dataLines ls).reverse.find? fun x => x.addr = a with
  | some x => x.num.extractLsb' 0 8
  | none =>
    match (textLines ls).reverse.find? fun x => (a - x.addr).toNat < 4 with
    | some x => x.num.extractLsb' (8 * (a - x.addr).toNat) 8
    | none => 0x00

/-- The listing the assembler writes for instruction words `ws` and data bytes `ds` at `base`: one line per word from
address 0 in steps of 4, the sentinel line at the first address past them, one line per data byte in ascending order
(30_encoding.md R113). -/
def assembledListing (ws : List Word) (ds : List Byte) (base : Word) : List Line :=
  ws.mapIdx (fun i w => ⟨BitVec.ofNat 32 (4 * i), w⟩) ++
  ⟨BitVec.ofNat 32 (4 * ws.length), Config.sentinel⟩ ::
  ds.mapIdx (fun j b => ⟨base + BitVec.ofNat 32 j, b.setWidth 32⟩)

end Sys2Proof.Spec

open Sys2Proof Sys2Proof.Machine Sys2Proof.Spec

/-! ## Encoding -/

/-- R94: decode of encode is the instruction, for every instruction with an encoding; and a value in the signed range
of a 12-, 13- or 21-bit immediate (even where bit 0 is implicit), encoded as its two's complement pattern, decodes to
exactly that value after sign extension. -/
def Obligations.DecodeInvertsEncode : Prop :=
  (∀ i : Instr, i.wf = true → decode (encode i) = .ok i) ∧
  (∀ (v : Int) (rd rs1 rs2 : Reg), -2 ^ 11 ≤ v → v ≤ 2 ^ 11 - 1 →
    (∃ imm, decode (encode (.addi rd rs1 (BitVec.ofInt 12 v))) = .ok (.addi rd rs1 imm) ∧ (imm12 imm).toInt = v) ∧
    (∃ imm, decode (encode (.sw rs1 rs2 (BitVec.ofInt 12 v))) = .ok (.sw rs1 rs2 imm) ∧ (imm12 imm).toInt = v)) ∧
  (∀ (v : Int) (rs1 rs2 : Reg), -2 ^ 12 ≤ v → v ≤ 2 ^ 12 - 1 → v % 2 = 0 →
    ∃ off, decode (encode (.blt rs1 rs2 (BitVec.ofInt 13 v))) = .ok (.blt rs1 rs2 off) ∧ (imm13 off).toInt = v) ∧
  (∀ (v : Int) (rd : Reg), -2 ^ 20 ≤ v → v ≤ 2 ^ 20 - 1 → v % 2 = 0 →
    ∃ off, decode (encode (.jal rd (BitVec.ofInt 21 v))) = .ok (.jal rd off) ∧ (imm21 off).toInt = v)

/-- Every word that decodes is the encoding of what it decodes to, and that instruction is well-formed: no bit of a
supported word is dropped, and no two words decode alike. -/
def Obligations.EncodeInvertsDecode : Prop :=
  ∀ (w : Word) (i : Instr), decode w = .ok i → encode i = w ∧ i.wf = true

/-- The opcode map of 30_encoding.md section 4 (numeric values: D3, log 8): for each of the 31 rows, a word is that
instruction exactly when `w & mask = match`; the rows do not overlap; and a word that decodes matches its row. -/
def Obligations.DecodeMatchesOpcodeMap : Prop :=
  opcodeTable.length = 31 ∧
  (∀ (w : Word) (row : TableRow), row ∈ opcodeTable →
    (w &&& row.mask = row.pattern ↔ ∃ i, decode w = .ok i ∧ i.row = row)) ∧
  (∀ (w : Word) (row row' : TableRow), row ∈ opcodeTable → row' ∈ opcodeTable →
    w &&& row.mask = row.pattern → w &&& row'.mask = row'.pattern → row = row') ∧
  (∀ i : Instr, i.row ∈ opcodeTable)

/-- Words written out from the encodings of the spec decode to the instruction they stand for (one or two per format;
30_encoding.md sections 2 to 5, numeric values: D3, log 8). A sanity statement. -/
def Obligations.SampleWordsDecode : Prop :=
  decode 0x002081B3 = .ok (.add 3 1 2) ∧ decode 0x4020D1B3 = .ok (.sra 3 1 2) ∧ decode 0x0220E1B3 = .ok (.rem 3 1 2) ∧
  decode 0xFFF08193 = .ok (.addi 3 1 (-1)) ∧ decode 0xFE20AE23 = .ok (.sw 1 2 (-4)) ∧
  decode 0x0080B183 = .ok (.ld 3 1 8) ∧ decode 0xFE50CEE3 = .ok (.blt 1 5 (-4)) ∧
  decode 0x123452B7 = .ok (.lui 5 0x12345) ∧ decode 0xFF9FF06F = .ok (.jal 0 (-8)) ∧
  decode 0x008282E7 = .ok (.jalr 5 5 8) ∧ decode 0xDEADBEEF = .ok (.jal 29 (-150038))

/-- A fetched word that is not zero and whose opcode is none of the nine is a decode error: the cycle ends with
HALTED(decode-error), and nothing else changes but the cycle counter, which keeps its increment (30_encoding.md section
5; eight of the nine opcode values: D3, log 8; the ceiling passed first: D11, D17, log 2; what a halting cycle leaves:
D18, log 14). -/
def Obligations.UnsupportedOpcodeHalts : Prop :=
  ∀ s : State, s.run = .running → BelowCeiling s → s.imem.fetch s.pc ≠ 0 →
    (s.imem.fetch s.pc).extractLsb' 0 7 ∉ supportedOpcodes → step s = .next (haltedState s .decodeError)

/-- The spec's decision D10 (30_encoding.md section 5, log 9), not the source's: a word of a supported opcode that
matches no row of the opcode map is a decode error too, rejected by the name of its function fields. -/
def Obligations.UnsupportedFunctionHalts : Prop :=
  ∀ s : State, s.run = .running → BelowCeiling s →
    (s.imem.fetch s.pc).extractLsb' 0 7 ∈ supportedOpcodes →
    (∀ row ∈ opcodeTable, s.imem.fetch s.pc &&& row.mask ≠ row.pattern) →
    (∃ op f3 f7, decode (s.imem.fetch s.pc) = .error (.unsupportedFunction op f3 f7)) ∧
    step s = .next (haltedState s .decodeError)

/-! ## Reset and image load -/

/-- 10_state.md section 8: after reset and the load of any listing the model accepts (which these are, that a later line
wins, that the sentinel is known by its word and that a listing without one is all text: D19 and the model's choice,
log 7), x0 and all registers but x2 are 0, x2 is 0x7FFFFFDC,
pc is 0, the cycle counter is 0, the run state is RUNNING, the instruction map holds exactly the entries of the image,
and data memory its bytes, 0x00 at every other address. -/
def Obligations.BootStateIsResetPlusImage : Prop :=
  ∀ (ls : List Line) (s : State), State.boot ls = some s →
    (∀ r : Reg, s.reg r = if r = 2 then 0x7FFFFFDC else 0) ∧ s.pc = 0 ∧ s.cycle = 0 ∧ s.run = .running ∧
    (∀ a, s.imem.entry a = imageEntry ls a) ∧ (∀ a, s.mem.byteAt a = imageByte ls a)

/-- The listing with no line boots to State.reset, whose memories are empty (10_state.md section 8; memories empty
before the load: D22). -/
def Obligations.EmptyListingBootsToReset : Prop :=
  State.boot [] = some State.reset ∧ (∀ a, State.reset.imem.entry a = none) ∧ (∀ a, State.reset.mem.byteAt a = 0) ∧
  (∀ r : Reg, State.reset.reg r = if r = 2 then 0x7FFFFFDC else 0) ∧ State.reset.pc = 0 ∧ State.reset.cycle = 0 ∧
  State.reset.run = .running

/-- A listing boots exactly when the number of every line after the sentinel is a byte (70_reset_and_hazards.md section 2;
the refusal of any other is D19 and the model's choice, log 7). -/
def Obligations.ListingBootsUnlessDataIsNoByte : Prop :=
  ∀ ls : List Line, (∃ s, State.boot ls = some s) ↔ ∀ x ∈ dataLines ls, x.num.toNat < 256

/-- R274, at any DATA_BASE (OPEN: log 20): the state after the load of an assembled listing of N instructions and a data segment of K bytes that does
not overlap the text. A word equal to the sentinel cannot be an instruction line (R273 e), and the data lies inside the
address space. -/
def Obligations.AssembledListingLoads : Prop :=
  ∀ (ws : List Word) (ds : List Byte) (base : Word), (∀ w ∈ ws, w ≠ Config.sentinel) →
    4 * ws.length ≤ base.toNat → base.toNat + ds.length ≤ 2 ^ 32 →
    ∃ s, State.boot (assembledListing ws ds base) = some s ∧
      (∀ i (h : i < ws.length), s.imem.entry (BitVec.ofNat 32 (4 * i)) = some ws[i]) ∧
      (∀ a : Word, (∀ i < ws.length, a ≠ BitVec.ofNat 32 (4 * i)) → s.imem.entry a = none) ∧
      s.imem.entry (BitVec.ofNat 32 (4 * ws.length)) = none ∧
      (∀ i (_ : i < ws.length) (j : Nat), j < 4 →
        s.mem.byteAt (BitVec.ofNat 32 (4 * i + j)) = ws[i].extractLsb' (8 * j) 8) ∧
      (∀ j (_ : j < ds.length), s.mem.byteAt (base + BitVec.ofNat 32 j) = ds[j]) ∧
      (∀ a : Word, 4 * ws.length ≤ a.toNat → (∀ j < ds.length, a ≠ base + BitVec.ofNat 32 j) → s.mem.byteAt a = 0)

/-- What the loader takes from a line is the two numbers: text after a space and the comma changes nothing
(30_encoding.md section 8; the number formats accepted are the model's choice, log 7). -/
def Obligations.AnnotationIsIgnored : Prop :=
  ∀ (cs rest : List Char) (x : Line), parseLine cs = some x → parseLine (cs ++ ' ' :: ',' :: rest) = some x

/-! ## Registers, memories -/

/-- R22: a write to register 1..31 replaces it and no other; a write to x0 changes no state at all; x0 is never altered
by any instruction; an instruction changes no register but its destination, and stores and branches change none; and a
step that changes the register file executes an instruction that names a destination. -/
def Obligations.RegisterWrites : Prop :=
  (∀ (s : State) (v : Word), s.setReg 0 v = s) ∧
  (∀ (s : State) (r q : Reg) (v : Word), r ≠ 0 → (s.setReg r v).reg q = if q = r then v else s.reg q) ∧
  (∀ (i : Instr) (s t : State), exec i s = .next t →
    t.reg 0 = 0 ∧ t.regs[0] = s.regs[0] ∧ ∀ r, destination i ≠ some r → t.reg r = s.reg r) ∧
  (∀ s t : State, step s = .next t → t.regs ≠ s.regs →
    ∃ i rd, decode (s.imem.fetch s.pc) = .ok i ∧ destination i = some rd)

/-- R53: the value of `MemRead(a, n)` is the little-endian number of the bytes at `a` .. `a + n-1`, addresses modulo
2^32; a byte that nothing has written contributes 0x00. -/
def Obligations.MemReadIsLittleEndian : Prop :=
  ∀ (m : Memory) (a : Word), (∀ n ∈ [1, 2, 4, 8], (m.load a n).toNat =
      ((List.range n).map fun i => (m.byteAt (a + BitVec.ofNat 32 i)).toNat * 256 ^ i).sum) ∧
    ((∀ c ∈ m, c.1 ≠ a.toNat) → m.byteAt a = 0x00)

/-- R54: `MemWrite(a, n, v)` puts byte i of v at `a + i` modulo 2^32 for i below n and changes no other byte, so that
`MemRead(a, n)` gives back the low 8n bits; SB writes the low 8 and SH the low 16 bits of rs2; and no instruction changes
the instruction map. -/
def Obligations.MemWriteStoresExactly : Prop :=
  (∀ (w n : Nat) (m : Memory) (a : Word) (v : BitVec w), n ∈ [1, 2, 4, 8] → 8 * n ≤ w →
    (∀ i < n, (m.store a v n).byteAt (a + BitVec.ofNat 32 i) = v.extractLsb' (8 * i) 8) ∧
    (∀ b, (∀ i < n, b ≠ a + BitVec.ofNat 32 i) → (m.store a v n).byteAt b = m.byteAt b) ∧
    (m.store a v n).load a n = v.setWidth (8 * n)) ∧
  (∀ (rs1 rs2 : Reg) (imm : BitVec 12) (s : State),
    Yields (.sb rs1 rs2 imm) s (fun t =>
      t.mem = s.mem.store (s.effectiveAddress rs1 imm) ((s.reg rs2).extractLsb' 0 8) 1) ∧
    Yields (.sh rs1 rs2 imm) s (fun t =>
      t.mem = s.mem.store (s.effectiveAddress rs1 imm) ((s.reg rs2).extractLsb' 0 16) 2)) ∧
  (∀ (i : Instr) (s t : State), exec i s = .next t → t.imem = s.imem)

/-- The effective address of every load and store and the targets of branches and jumps are sums modulo 2^32
(20_memory.md section 3, 44_control_transfer.md; wrapping: D13, log 13); the target of JALR is the sum with bit 0
cleared. -/
def Obligations.AddressSumsWrap : Prop :=
  ∀ (s : State) (rs1 : Reg) (imm : BitVec 12) (off13 : BitVec 13) (off21 : BitVec 21),
    IsAddr (s.effectiveAddress rs1 imm) (s.reg rs1) imm.toInt ∧
    IsAddr (s.branchTarget off13) s.pc off13.toInt ∧ IsAddr (s.jalTarget off21) s.pc off21.toInt ∧
    ∃ a, IsAddr a (s.reg rs1) imm.toInt ∧ (s.jalrTarget rs1 imm).toNat = a.toNat / 2 * 2

/-- Canonical memories that read alike at every address are the same data, and so are canonical instruction maps;
writing to a byte the value it already reads as changes nothing (log 4, log 5: the model's own form). -/
def Obligations.CanonicalFormIsExtensional : Prop :=
  (∀ m m' : Memory, m.wf → m'.wf → (∀ a, m.byteAt a = m'.byteAt a) → m = m') ∧
  (∀ m m' : InstrMap, m.wf → m'.wf → (∀ a, m.entry a = m'.entry a) → m = m') ∧
  (∀ (m : Memory) (a : Word), m.wf → m.setByte a (m.byteAt a) = m)

/-! ## Results of instructions: the whole effect, for every operand and every state -/

/-- R161: ADD. The word with opcode 0110011, funct3 000, funct7 0000000 is ADD of its register fields; ADD writes the
sum modulo 2^32 to rd (nothing when rd is 0) and goes to pc + 4; nothing else changes, and the run goes on. -/
def Obligations.AddWritesSum : Prop :=
  (∀ w : Word, w &&& 0xFE00707F = 0x00000033 →
    decode w = .ok (.add (w.extractLsb' 7 5) (w.extractLsb' 15 5) (w.extractLsb' 20 5))) ∧
  ∀ (rd rs1 rs2 : Reg) (s : State), Yields (.add rd rs1 rs2) s fun t =>
    ∃ v, WritesReg s t rd v (s.pc + 4) ∧ v.toNat = ((s.reg rs1).toNat + (s.reg rs2).toNat) % 2 ^ 32

/-- R162: SUB, likewise with funct7 0100000 and the difference modulo 2^32. -/
def Obligations.SubWritesDifference : Prop :=
  (∀ w : Word, w &&& 0xFE00707F = 0x40000033 →
    decode w = .ok (.sub (w.extractLsb' 7 5) (w.extractLsb' 15 5) (w.extractLsb' 20 5))) ∧
  ∀ (rd rs1 rs2 : Reg) (s : State), Yields (.sub rd rs1 rs2) s fun t =>
    ∃ v, WritesReg s t rd v (s.pc + 4) ∧ v.toInt = ((s.reg rs1).toInt - (s.reg rs2).toInt).bmod (2 ^ 32)

/-- The three shifts (41_integer_register.md section 2): the amount is rs2 modulo 32; SLL multiplies modulo 2^32, SRL
divides the unsigned value, SRA the signed value rounding down (what fills: canonical meaning, G9, log 8). -/
def Obligations.ShiftsUseAmountModulo32 : Prop :=
  ∀ (rd rs1 rs2 : Reg) (s : State),
    Yields (.sll rd rs1 rs2) s (fun t => ∃ v, WritesReg s t rd v (s.pc + 4) ∧
      v.toNat = (s.reg rs1).toNat * 2 ^ ((s.reg rs2).toNat % 32) % 2 ^ 32) ∧
    Yields (.srl rd rs1 rs2) s (fun t => ∃ v, WritesReg s t rd v (s.pc + 4) ∧
      v.toNat = (s.reg rs1).toNat / 2 ^ ((s.reg rs2).toNat % 32)) ∧
    Yields (.sra rd rs1 rs2) s (fun t => ∃ v, WritesReg s t rd v (s.pc + 4) ∧
      v.toInt = (s.reg rs1).toInt / 2 ^ ((s.reg rs2).toNat % 32))

/-- SLT writes 1 when rs1 is less than rs2 as signed numbers, else 0 (41_integer_register.md section 2; signed: D4,
log 10). -/
def Obligations.SltComparesSigned : Prop :=
  ∀ (rd rs1 rs2 : Reg) (s : State), Yields (.slt rd rs1 rs2) s fun t =>
    ∃ v, WritesReg s t rd v (s.pc + 4) ∧
      ((s.reg rs1).toInt < (s.reg rs2).toInt → v = 1) ∧ ((s.reg rs2).toInt ≤ (s.reg rs1).toInt → v = 0)

/-- XOR, OR and AND act bit by bit (41_integer_register.md section 2). -/
def Obligations.LogicIsBitwise : Prop :=
  ∀ (rd rs1 rs2 : Reg) (s : State),
    Yields (.xor rd rs1 rs2) s (fun t => ∃ v, WritesReg s t rd v (s.pc + 4) ∧
      ∀ k, v.getLsbD k = ((s.reg rs1).getLsbD k != (s.reg rs2).getLsbD k)) ∧
    Yields (.or rd rs1 rs2) s (fun t => ∃ v, WritesReg s t rd v (s.pc + 4) ∧
      ∀ k, v.getLsbD k = ((s.reg rs1).getLsbD k || (s.reg rs2).getLsbD k)) ∧
    Yields (.and rd rs1 rs2) s (fun t => ∃ v, WritesReg s t rd v (s.pc + 4) ∧
      ∀ k, v.getLsbD k = ((s.reg rs1).getLsbD k && (s.reg rs2).getLsbD k))

/-- ADDI adds the sign-extended immediate modulo 2^32; ANDI and ORI combine with it bit by bit, the sign bit standing in
every position from 11 up (42_integer_immediate_upper.md; which members exist: D2, log 8). -/
def Obligations.ImmediateFormsSignExtend : Prop :=
  ∀ (rd rs1 : Reg) (imm : BitVec 12) (s : State),
    Yields (.addi rd rs1 imm) s (fun t => ∃ v, WritesReg s t rd v (s.pc + 4) ∧
      v.toInt = ((s.reg rs1).toInt + imm.toInt).bmod (2 ^ 32)) ∧
    Yields (.andi rd rs1 imm) s (fun t => ∃ v, WritesReg s t rd v (s.pc + 4) ∧
      ∀ k < 32, v.getLsbD k = ((s.reg rs1).getLsbD k && imm.getLsbD (min k 11))) ∧
    Yields (.ori rd rs1 imm) s (fun t => ∃ v, WritesReg s t rd v (s.pc + 4) ∧
      ∀ k < 32, v.getLsbD k = ((s.reg rs1).getLsbD k || imm.getLsbD (min k 11)))

/-- LUI writes the 20-bit field times 2^12, AUIPC its sum with the pc of the AUIPC modulo 2^32
(42_integer_immediate_upper.md; the shift by 12: D9, log 12). -/
def Obligations.UpperImmediatesShiftBy12 : Prop :=
  ∀ (rd : Reg) (imm : BitVec 20) (s : State),
    Yields (.lui rd imm) s (fun t => ∃ v, WritesReg s t rd v (s.pc + 4) ∧ v.toNat = imm.toNat * 2 ^ 12) ∧
    Yields (.auipc rd imm) s (fun t => ∃ v, WritesReg s t rd v (s.pc + 4) ∧
      v.toNat = (s.pc.toNat + imm.toNat * 2 ^ 12) % 2 ^ 32)

/-- MUL writes the product modulo 2^32, which is the same read signed or unsigned (43_muldiv.md section 2; the low half:
canonical meaning, G9, log 8). -/
def Obligations.MulWritesLowProduct : Prop :=
  ∀ (rd rs1 rs2 : Reg) (s : State), Yields (.mul rd rs1 rs2) s fun t =>
    ∃ v, WritesReg s t rd v (s.pc + 4) ∧ v.toNat = (s.reg rs1).toNat * (s.reg rs2).toNat % 2 ^ 32 ∧
      v.toInt = ((s.reg rs1).toInt * (s.reg rs2).toInt).bmod (2 ^ 32)

/-- DIV: 0 when the divisor is 0; 0x80000000 for -2^31 / -1; otherwise exactly the signed quotient rounded toward zero
(43_muldiv.md section 2; signedness and rounding: D4, D5, log 10). -/
def Obligations.DivRoundsTowardZero : Prop :=
  ∀ (rd rs1 rs2 : Reg) (s : State), Yields (.div rd rs1 rs2) s fun t =>
    ∃ v, WritesReg s t rd v (s.pc + 4) ∧
      ((s.reg rs2).toInt = 0 → v = 0) ∧
      ((s.reg rs1).toInt = -2 ^ 31 ∧ (s.reg rs2).toInt = -1 → v = 0x80000000) ∧
      ((s.reg rs2).toInt ≠ 0 → ¬((s.reg rs1).toInt = -2 ^ 31 ∧ (s.reg rs2).toInt = -1) →
        v.toInt = (s.reg rs1).toInt.tdiv (s.reg rs2).toInt)

/-- REM: 0 when the divisor is 0; otherwise smaller in size than the divisor, and zero or of the dividend's sign
(43_muldiv.md section 2; D4, D5, log 10). -/
def Obligations.RemHasSignOfDividend : Prop :=
  ∀ (rd rs1 rs2 : Reg) (s : State), Yields (.rem rd rs1 rs2) s fun t =>
    ∃ v, WritesReg s t rd v (s.pc + 4) ∧
      ((s.reg rs2).toInt = 0 → v = 0) ∧
      ((s.reg rs2).toInt ≠ 0 → v.toInt = (s.reg rs1).toInt.tmod (s.reg rs2).toInt ∧
        v.toInt.natAbs < (s.reg rs2).toInt.natAbs ∧ 0 ≤ v.toInt * (s.reg rs1).toInt)

/-- `a = b * DIV(a, b) + REM(a, b)` modulo 2^32 for every nonzero b; for b = 0 both results are 0 (43_muldiv.md section 2;
D5, log 10). -/
def Obligations.DivRemIdentity : Prop :=
  ∀ (rd rs1 rs2 : Reg) (s : State), rd ≠ 0 →
    ∃ t u, exec (.div rd rs1 rs2) s = .next t ∧ exec (.rem rd rs1 rs2) s = .next u ∧
      (s.reg rs2 ≠ 0 → s.reg rs1 = s.reg rs2 * t.reg rd + u.reg rd) ∧
      (s.reg rs2 = 0 → t.reg rd = 0 ∧ u.reg rd = 0)

/-- JAL writes the address after it to rd and goes to pc + offset, both from its own pc (44_control_transfer.md
section 2). -/
def Obligations.JalLinksAndJumps : Prop :=
  ∀ (rd : Reg) (offset : BitVec 21) (s : State), Yields (.jal rd offset) s fun t =>
    WritesReg s t rd (s.pc + 4) t.pc ∧ IsAddr t.pc s.pc offset.toInt

/-- JALR goes to x[rs1] + imm with bit 0 cleared and bit 1 kept, reading rs1 before rd is written, and writes the address
after it to rd (44_control_transfer.md section 2). -/
def Obligations.JalrClearsBitZero : Prop :=
  ∀ (rd rs1 : Reg) (imm : BitVec 12) (s : State), Yields (.jalr rd rs1 imm) s fun t =>
    WritesReg s t rd (s.pc + 4) t.pc ∧ t.pc.getLsbD 0 = false ∧
    ∃ a, IsAddr a (s.reg rs1) imm.toInt ∧ t.pc.toNat = a.toNat / 2 * 2

/-- BEQ and BNE compare all 32 bits; taken goes to pc + offset, not taken to pc + 4; nothing but the pc changes
(44_control_transfer.md section 3). -/
def Obligations.EqualityBranches : Prop :=
  ∀ (rs1 rs2 : Reg) (offset : BitVec 13) (s : State),
    Yields (.beq rs1 rs2 offset) s (fun t => OnlyMovesPc s t ∧
      (s.reg rs1 = s.reg rs2 → IsAddr t.pc s.pc offset.toInt) ∧ (s.reg rs1 ≠ s.reg rs2 → t.pc = s.pc + 4)) ∧
    Yields (.bne rs1 rs2 offset) s (fun t => OnlyMovesPc s t ∧
      (s.reg rs1 ≠ s.reg rs2 → IsAddr t.pc s.pc offset.toInt) ∧ (s.reg rs1 = s.reg rs2 → t.pc = s.pc + 4))

/-- BLT and BGE compare signed numbers and are each other's complement (44_control_transfer.md section 3; signed: D4,
log 10). -/
def Obligations.SignedBranches : Prop :=
  ∀ (rs1 rs2 : Reg) (offset : BitVec 13) (s : State),
    Yields (.blt rs1 rs2 offset) s (fun t => OnlyMovesPc s t ∧
      ((s.reg rs1).toInt < (s.reg rs2).toInt → IsAddr t.pc s.pc offset.toInt) ∧
      ((s.reg rs2).toInt ≤ (s.reg rs1).toInt → t.pc = s.pc + 4)) ∧
    Yields (.bge rs1 rs2 offset) s (fun t => OnlyMovesPc s t ∧
      ((s.reg rs2).toInt ≤ (s.reg rs1).toInt → IsAddr t.pc s.pc offset.toInt) ∧
      ((s.reg rs1).toInt < (s.reg rs2).toInt → t.pc = s.pc + 4))

/-- 40_decode_control.md section 4: the next pc of every instruction (BLT and BGE compare signed: D4, log 10): for JAL and JALR always the taken target (JALR's with bit 0 cleared), for a
branch the taken target if its condition holds, otherwise pc + 4; and JAL and JALR write pc + 4 to their destination
register unless it is x0. -/
def Obligations.NextPcRule : Prop :=
  ∀ (i : Instr) (s : State), Yields i s fun t =>
    match i with
    | .jal rd off => IsAddr t.pc s.pc off.toInt ∧ (rd ≠ 0 → t.reg rd = s.pc + 4)
    | .jalr rd rs1 imm => (∃ a, IsAddr a (s.reg rs1) imm.toInt ∧ t.pc = a &&& 0xFFFFFFFE) ∧
        (rd ≠ 0 → t.reg rd = s.pc + 4)
    | .beq rs1 rs2 off => if s.reg rs1 = s.reg rs2 then IsAddr t.pc s.pc off.toInt else IsAddr t.pc s.pc 4
    | .bne rs1 rs2 off => if s.reg rs1 ≠ s.reg rs2 then IsAddr t.pc s.pc off.toInt else IsAddr t.pc s.pc 4
    | .blt rs1 rs2 off =>
        if (s.reg rs1).toInt < (s.reg rs2).toInt then IsAddr t.pc s.pc off.toInt else IsAddr t.pc s.pc 4
    | .bge rs1 rs2 off =>
        if (s.reg rs1).toInt ≥ (s.reg rs2).toInt then IsAddr t.pc s.pc off.toInt else IsAddr t.pc s.pc 4
    | _ => IsAddr t.pc s.pc 4

/-- LB and LH load the signed little-endian number of one or two bytes from the effective address, at any alignment, and
change no memory (45_load_store.md section 2; sign extension: D6, log 11; alignment: D12, log 13). -/
def Obligations.NarrowLoadsSignExtend : Prop :=
  ∀ (rd rs1 : Reg) (imm : BitVec 12) (s : State),
    Yields (.lb rd rs1 imm) s (fun t => ∃ v, WritesReg s t rd v (s.pc + 4) ∧
      v.toInt = (s.mem.byteAt (s.effectiveAddress rs1 imm)).toInt) ∧
    Yields (.lh rd rs1 imm) s (fun t => ∃ v, WritesReg s t rd v (s.pc + 4) ∧
      v.toInt = (s.mem.byteAt (s.effectiveAddress rs1 imm + 1)).toInt * 256 +
        (s.mem.byteAt (s.effectiveAddress rs1 imm)).toNat)

/-- LW loads the little-endian number of four bytes from the effective address, at any alignment; LD writes the same
value (45_load_store.md section 2; LD: D7, log 11; alignment: D12, log 13). -/
def Obligations.WordLoads : Prop :=
  ∀ (rd rs1 : Reg) (imm : BitVec 12) (s : State), ∃ v : Word,
    v.toNat = (s.mem.byteAt (s.effectiveAddress rs1 imm)).toNat +
      (s.mem.byteAt (s.effectiveAddress rs1 imm + 1)).toNat * 256 +
      (s.mem.byteAt (s.effectiveAddress rs1 imm + 2)).toNat * 256 ^ 2 +
      (s.mem.byteAt (s.effectiveAddress rs1 imm + 3)).toNat * 256 ^ 3 ∧
    Yields (.lw rd rs1 imm) s (fun t => WritesReg s t rd v (s.pc + 4)) ∧
    Yields (.ld rd rs1 imm) s (fun t => WritesReg s t rd v (s.pc + 4))

/-- SB, SH and SW store the low 1, 2 or 4 bytes of rs2, lowest byte first, at the effective address, and change no other
byte, no register and no instruction (45_load_store.md section 3; alignment: D12, log 13). -/
def Obligations.StoresWriteLowBytes : Prop :=
  ∀ (rs1 rs2 : Reg) (imm : BitVec 12) (s : State),
    Yields (.sb rs1 rs2 imm) s (fun t =>
      StoresBytes s t (s.effectiveAddress rs1 imm) 1 fun i => (s.reg rs2).extractLsb' (8 * i) 8) ∧
    Yields (.sh rs1 rs2 imm) s (fun t =>
      StoresBytes s t (s.effectiveAddress rs1 imm) 2 fun i => (s.reg rs2).extractLsb' (8 * i) 8) ∧
    Yields (.sw rs1 rs2 imm) s (fun t =>
      StoresBytes s t (s.effectiveAddress rs1 imm) 4 fun i => (s.reg rs2).extractLsb' (8 * i) 8)

/-- SD stores eight bytes: the four of rs2 as SW would, then the four of the OPEN value SD_UPPER(x[rs2]), whatever that
is (45_load_store.md sections 1 and 3; D8, log 1). -/
def Obligations.SdStoresEightBytes : Prop :=
  ∀ (rs1 rs2 : Reg) (imm : BitVec 12) (s : State), Yields (.sd rs1 rs2 imm) s fun t =>
    StoresBytes s t (s.effectiveAddress rs1 imm) 8 fun i =>
      if i < 4 then (s.reg rs2).extractLsb' (8 * i) 8 else (Config.sdUpper (s.reg rs2)).extractLsb' (8 * (i - 4)) 8

/-- A SW then a LW at the same effective address gives back the stored value exactly, whatever registers name the
address and wherever it lies (45_load_store.md section 2; at an address that wraps or is not aligned: D12, D13,
log 13). -/
def Obligations.StoreWordThenLoadWord : Prop :=
  ∀ (rs1 rs2 rd base : Reg) (imm imm' : BitVec 12) (s t : State), exec (.sw rs1 rs2 imm) s = .next t → rd ≠ 0 →
    t.effectiveAddress base imm' = s.effectiveAddress rs1 imm →
    Yields (.lw rd base imm') t fun u => u.reg rd = s.reg rs2

/-- `addi x0, x0, 0` changes nothing but the pc; an instruction whose rd is x0 changes no register and no memory; and it is
executed in full with only its register write discarded: from every state it completes, and its next state is that of
the same instruction with any other destination, but for the registers, which are as before (30_encoding.md section 5). -/
def Obligations.ZeroDestinationDiscardsOnlyTheWrite : Prop :=
  (∀ s : State, exec (.addi 0 0 0) s = .next { s with pc := s.pc + 4 }) ∧
  (∀ (i : Instr) (s t : State), exec i s = .next t → destination i = some 0 → t.regs = s.regs ∧ t.mem = s.mem) ∧
  (∀ (i : Instr) (r : Reg) (s : State), destination i ≠ none →
    destination (withDestination r i) = some r ∧ destination (withDestination 0 i) = some 0 ∧
    ∃ u, exec (withDestination r i) s = .next u ∧ exec (withDestination 0 i) s = .next { u with regs := s.regs })

/-! ## Whole-machine rules -/

/-- 20_memory.md sections 6 and 7: a load depends on memory only through the bytes of its one access and changes none; a store changes none but
the bytes of its one access; every other instruction neither reads nor changes memory; fetch reads the instruction map
only, so what is fetched and decoded does not depend on data memory. -/
def Obligations.OneAccessPerInstruction : Prop :=
  (∀ (i : Instr) (s t : State) (m : Memory), exec i s = .next t → storeAccess s i = none →
    (∀ ea n, loadAccess s i = some (ea, n) →
      ∀ k < n, m.byteAt (ea + BitVec.ofNat 32 k) = s.mem.byteAt (ea + BitVec.ofNat 32 k)) →
    t.mem = s.mem ∧ exec i { s with mem := m } = .next { t with mem := m }) ∧
  (∀ (i : Instr) (s t : State) (ea : Word) (n : Nat), exec i s = .next t → storeAccess s i = some (ea, n) →
    (∀ a, n ≤ (a - ea).toNat → t.mem.byteAt a = s.mem.byteAt a) ∧
    ∀ m : Memory, ∃ m', exec i { s with mem := m } = .next { t with mem := m' }) ∧
  (∀ (s : State) (m : Memory), State.fetchWord { s with mem := m } = s.fetchWord)

/-- No instruction can read or write the cycle counter, the run state or the instruction map: executing it with any
others in their place gives the same result with those in their place (10_state.md sections 4 and 5). -/
def Obligations.CycleRunAndImemAreInvisible : Prop :=
  ∀ (i : Instr) (s t : State) (c : Nat) (r : RunState) (m : InstrMap), exec i s = .next t →
    exec i { s with cycle := c, run := r, imem := m } = .next { t with cycle := c, run := r, imem := m }

/-- Stores are never seen by instruction fetch: in no run does the instruction map change, so every fetch, whatever was
stored, gives the word the image load put there (20_memory.md section 6, derived there). -/
def Obligations.InstructionMapNeverChanges : Prop :=
  ∀ s t : State, Reaches s t → t.imem = s.imem ∧ ∀ a, t.imem.fetch a = s.imem.fetch a

/-- A step of a running core below the ceiling whose fetched word is not the halt word and decodes to an instruction is
exactly exec of that instruction on the state whose cycle counter has gone up by one (40_decode_control.md section 2;
place of the ceiling test: D11, log 2). -/
def Obligations.StepRunsTheDecodedInstruction : Prop :=
  ∀ (s : State) (i : Instr), s.run = .running → BelowCeiling s → s.imem.fetch s.pc ≠ 0 →
    decode (s.imem.fetch s.pc) = .ok i → step s = exec i { s with cycle := s.cycle + 1 }

/-- 30_encoding.md section 5: the all-zero word is the halt word (the ceiling passed first: D11, D17, log 2; what a
halting cycle leaves: D18, log 14): below the ceiling, a fetch that gives it ends the run as HALTED(normal),
before decode, so that it is no decode error although its opcode is unsupported; an address with no entry fetches as
it. -/
def Obligations.ZeroWordHaltsNormally : Prop :=
  (∀ s : State, s.run = .running → BelowCeiling s → s.imem.fetch s.pc = 0x00000000 →
    step s = .next (haltedState s .normal)) ∧
  (∃ e, decode 0x00000000 = .error e) ∧
  (∀ (m : InstrMap) (a : Word), m.entry a = none → m.fetch a = 0x00000000)

/-- The ceiling is tested first: a running core halts with cycle-limit exactly when the incremented counter is past the
ceiling by more than the OPEN slack, whatever lies at the pc; so never while the counter is below 5000, and always from
5002 on (60_exceptions.md sections 2 and 3; D11, D17, D18, log 2, log 14). -/
def Obligations.CycleLimitHalts : Prop :=
  ∀ s : State, s.run = .running →
    (¬ BelowCeiling s → step s = .next (haltedState s .cycleLimit)) ∧
    (∀ t, step s = .next t → t.run = .halted .cycleLimit → ¬ BelowCeiling s) ∧
    (s.cycle < 5000 → BelowCeiling s) ∧ (5002 ≤ s.cycle → ¬ BelowCeiling s)

/-- 10_state.md section 4 (a step from a halted state is the model's fault: log 3; what a halting cycle leaves: D18, log
14; the form of the report: log 19): RUNNING at reset; a step of a running core leaves it RUNNING or makes it HALTED with one of the three reasons,
and raising a halt is the only way; a halted core performs no cycle, so its run state never changes again; no
instruction reads or changes it; and only on HALTED are registers and memory reported, as they are. -/
def Obligations.RunStateLifecycle : Prop :=
  State.reset.run = .running ∧
  (∀ s : State, s.run = .running → ∃ t, step s = .next t ∧
    (t.run = .running ∨ t = haltedState s .normal ∨ t = haltedState s .decodeError ∨ t = haltedState s .cycleLimit)) ∧
  (∀ (s t : State) (r : HaltReason), s.run = .halted r → step s = .fault (.halted r) ∧ (Reaches s t → t = s)) ∧
  (∀ (i : Instr) (s t : State) (r : RunState), exec i s = .next t →
    t.run = s.run ∧ exec i { s with run := r } = .next { t with run := r }) ∧
  (∀ s : State, (s.run = .running ↔ s.finalReport = none) ∧
    ∀ f, s.finalReport = some f → s.run = .halted f.reason ∧ f.mem = s.mem ∧ f.regs.length = 32 ∧
      ∀ r : Reg, f.regs[r.toNat]? = some (s.reg r))

/-- The report of a decode error holds the pc and the word at it; that of the normal end and of the cycle limit holds
neither (60_exceptions.md section 3, the spec's choice D23, log 19). -/
def Obligations.DecodeErrorReport : Prop :=
  (∀ s : State, s.run = .running → BelowCeiling s → s.imem.fetch s.pc ≠ 0 →
    (∃ e, decode (s.imem.fetch s.pc) = .error e) →
    ∃ t f, step s = .next t ∧ t.finalReport = some f ∧ f.reason = .decodeError ∧
      f.offending = some (s.pc, s.imem.fetch s.pc)) ∧
  (∀ s : State, s.run = .halted .normal ∨ s.run = .halted .cycleLimit →
    ∃ f, s.finalReport = some f ∧ s.run = .halted f.reason ∧ f.offending = none)

/-- A step ends in an error only past the ceiling or on a word the decoder does not support (40_decode_control.md
section 6, 60_exceptions.md section 2; D10, D11, log 9, log 2). -/
def Obligations.ErrorsComeFromCeilingOrDecode : Prop :=
  ∀ s t : State, step s = .next t → ¬ t.noError →
    ¬ BelowCeiling s ∨ (s.imem.fetch s.pc ≠ 0 ∧ ∃ e, decode (s.imem.fetch s.pc) = .error e)

/-- Every step that answers counts one cycle, so n steps count n (10_state.md section 4, 60_exceptions.md section 8). -/
def Obligations.CycleCountsSteps : Prop :=
  ∀ (n : Nat) (s t : State), runFor n s = .next t → t.cycle = s.cycle + n

/-- Every run ends: from any running state the core is halted after at most as many steps as the ceiling leaves, with
the OPEN slack at its largest, and after one step where the counter is already past it (40_decode_control.md section 6;
D11, log 2). -/
def Obligations.EveryRunEnds : Prop :=
  ∀ s : State, s.run = .running →
    ∃ n t, n ≤ max 1 (5003 - s.cycle) ∧ runFor n s = .next t ∧ ∃ r, t.run = .halted r

/-- A run that meets no error ends normally (40_decode_control.md section 6; D11, log 2). -/
def Obligations.SafeRunsEndNormally : Prop :=
  ∀ s : State, s.run = .running → s.safe →
    ∃ n t, n ≤ 5003 ∧ runFor n s = .next t ∧ t.run = .halted .normal

/-- The invariant (both memories in canonical form, the hardwired register's cell zero, the pc even, the counter within
its bound) is kept by every step from every state that has it (10_state.md sections 2, 3 and 4; canonical form: log 4,
log 5; bound: D11, log 2). -/
def Obligations.StepKeepsInv : Prop :=
  ∀ s t : State, s.Inv → step s = .next t → t.Inv

/-- Reset and every booted listing have the invariant (10_state.md section 8; canonical form: log 4, log 5). -/
def Obligations.BootStatesHaveInv : Prop :=
  State.reset.Inv ∧ ∀ (ls : List Line) (s : State), State.boot ls = some s → s.Inv

/-! ## The control unit and the datapath -/

/-- The two descriptions of an instruction agree: its own rule (exec) and the datapath of the cycle driven by its control
bundle and decoded fields, whatever the hardware drives where the spec says nothing reads it (40_decode_control.md
sections 2 to 4; the names and the derived table: D16; log 17). -/
def Obligations.DatapathAgreesWithExec : Prop :=
  ∀ (junk : Word) (i : Instr) (s : State), exec i s = .next (datapath junk (controlOf i) (fieldsOf i) s)

/-- The control bundle (40_decode_control.md section 3; names: D16): memory read and write are never both enabled, the
memory address comes from the ALU exactly when an access is made, a width is given exactly then, the register-write
enable is on exactly for instructions with a destination, the field the write goes to is that destination, and
the operation tag is the one of the mnemonic table. -/
def Obligations.ControlBundleIsConsistent : Prop :=
  ∀ i : Instr, ¬((controlOf i).memRead = true ∧ (controlOf i).memWrite = true) ∧
    ((controlOf i).maSel = .alu ↔ (controlOf i).memRead = true ∨ (controlOf i).memWrite = true) ∧
    ((controlOf i).memWidth.isSome = true ↔ (controlOf i).maSel = .alu) ∧
    ((controlOf i).regWrite = true ↔ (destination i).isSome = true) ∧ (fieldsOf i).rd = destination i ∧
    (controlOf i).aluOp = i.row.tag

/-! ## Where a word holds the decoder's outputs -/

/-- For every word of every format that decodes, and for the word the encoder gives every well-formed instruction, the
instruction's rd, rs1, rs2 and immediate are the bits that the format names (30_encoding.md sections 2 and 3). With
DecodeInvertsEncode this fixes each bit of decoder and encoder, not only that the two agree. -/
def Obligations.OperandsAreTheBitsTheFormatNames : Prop :=
  (∀ (w : Word) (i : Instr), decode w = .ok i → OperandsAt w i) ∧
  (∀ i : Instr, i.wf = true → OperandsAt (encode i) i)

/-- For every supported word the decoder's outputs rd, rs1, rs2, funct3, funct7 and imm are the word's, each present
exactly where the format has it: the register fields and selectors are the bits the format names; the immediate is there
but for the R-format, and each of its 32 bits is the bit of the word that the format's immediate rule names
(30_encoding.md sections 2, 3 and 6; the U immediate's place: D9, log 12). -/
def Obligations.DecodedFieldsFollowTheFormat : Prop :=
  ∀ (w : Word) (i : Instr), decode w = .ok i →
    i.row.format = formatOf i ∧ i.row.opcode = w.extractLsb' 0 7 ∧
    ((fieldsOf i).rd = if formatOf i ∈ [.R, .I, .U, .UJ] then some (w.extractLsb' 7 5) else none) ∧
    ((fieldsOf i).rs1 = if formatOf i ∈ [.R, .I, .S, .SB] then some (w.extractLsb' 15 5) else none) ∧
    ((fieldsOf i).rs2 = if formatOf i ∈ [.R, .S, .SB] then some (w.extractLsb' 20 5) else none) ∧
    ((fieldsOf i).funct3 = if formatOf i ∈ [.R, .I, .S, .SB] then some (w.extractLsb' 12 3) else none) ∧
    ((fieldsOf i).funct7 = if formatOf i = .R then some (w.extractLsb' 25 7) else none) ∧
    ((fieldsOf i).imm = none ↔ formatOf i = .R) ∧
    ∀ v, (fieldsOf i).imm = some v → ∀ k < 32, v.getLsbD k = immBit w k (formatOf i)
end

