-- ==== Sys2Proof/Laws/Encoding.lean ====
section
/-! SUPPORT. The bits of an encoded word, format by format (30_encoding.md R81 to R87), what each field extractor
reads back, and the word under its row's mask (R95). -/

namespace Sys2Proof

variable (f7 : BitVec 7) (f3 : BitVec 3) (rd rs1 rs2 : Reg) (op : BitVec 7) (imm : BitVec 12) (imm20 : BitVec 20)
  (off13 : BitVec 13) (off21 : BitVec 21)

/-! ### Bits of each format -/

theorem bits_encodeR (i : Nat) : (encodeR f7 rs2 rs1 f3 rd op).getLsbD i =
    if i < 7 then op.getLsbD i else if i < 12 then rd.getLsbD (i - 7)
    else if i < 15 then f3.getLsbD (i - 12) else if i < 20 then rs1.getLsbD (i - 15)
    else if i < 25 then rs2.getLsbD (i - 20) else f7.getLsbD (i - 25) := by
  change BitVec.getLsbD (w := 7 + 5 + 5 + 3 + 5 + 7) (f7 ++ rs2 ++ rs1 ++ f3 ++ rd ++ op) i = _
  simp only [BitVec.getLsbD_append]
  split_ifs <;> first | rfl | omega

theorem bits_encodeI (i : Nat) : (encodeI imm rs1 f3 rd op).getLsbD i =
    if i < 7 then op.getLsbD i else if i < 12 then rd.getLsbD (i - 7)
    else if i < 15 then f3.getLsbD (i - 12) else if i < 20 then rs1.getLsbD (i - 15)
    else imm.getLsbD (i - 20) := by
  change BitVec.getLsbD (w := 12 + 5 + 3 + 5 + 7) (imm ++ rs1 ++ f3 ++ rd ++ op) i = _
  simp only [BitVec.getLsbD_append]
  split_ifs <;> first | rfl | omega

theorem bits_encodeS (i : Nat) (hi : i < 32) : (encodeS imm rs2 rs1 f3 op).getLsbD i =
    if i < 7 then op.getLsbD i else if i < 12 then imm.getLsbD (i - 7)
    else if i < 15 then f3.getLsbD (i - 12) else if i < 20 then rs1.getLsbD (i - 15)
    else if i < 25 then rs2.getLsbD (i - 20) else imm.getLsbD (i - 20) := by
  change BitVec.getLsbD (w := 7 + 5 + 5 + 3 + 5 + 7)
    (imm.extractLsb' 5 7 ++ rs2 ++ rs1 ++ f3 ++ imm.extractLsb' 0 5 ++ op) i = _
  simp only [BitVec.getLsbD_append, BitVec.getLsbD_extractLsb']
  interval_cases i <;> simp

theorem bits_encodeSB (i : Nat) (hi : i < 32) : (encodeSB off13 rs2 rs1 f3 op).getLsbD i =
    if i < 7 then op.getLsbD i else if i < 8 then off13.getLsbD 11 else if i < 12 then off13.getLsbD (i - 7)
    else if i < 15 then f3.getLsbD (i - 12) else if i < 20 then rs1.getLsbD (i - 15)
    else if i < 25 then rs2.getLsbD (i - 20) else if i < 31 then off13.getLsbD (i - 20) else off13.getLsbD 12 := by
  change BitVec.getLsbD (w := 1 + 6 + 5 + 5 + 3 + 4 + 1 + 7)
    (off13.extractLsb' 12 1 ++ off13.extractLsb' 5 6 ++ rs2 ++ rs1 ++ f3 ++ off13.extractLsb' 1 4
      ++ off13.extractLsb' 11 1 ++ op) i = _
  simp only [BitVec.getLsbD_append, BitVec.getLsbD_extractLsb']
  interval_cases i <;> simp

theorem bits_encodeU (i : Nat) : (encodeU imm20 rd op).getLsbD i =
    if i < 7 then op.getLsbD i else if i < 12 then rd.getLsbD (i - 7) else imm20.getLsbD (i - 12) := by
  change BitVec.getLsbD (w := 20 + 5 + 7) (imm20 ++ rd ++ op) i = _
  simp only [BitVec.getLsbD_append]
  split_ifs <;> first | rfl | omega

theorem bits_encodeUJ (i : Nat) (hi : i < 32) : (encodeUJ off21 rd op).getLsbD i =
    if i < 7 then op.getLsbD i else if i < 12 then rd.getLsbD (i - 7)
    else if i < 20 then off21.getLsbD i else if i < 21 then off21.getLsbD 11
    else if i < 31 then off21.getLsbD (i - 20) else off21.getLsbD 20 := by
  change BitVec.getLsbD (w := 1 + 10 + 1 + 8 + 5 + 7)
    (off21.extractLsb' 20 1 ++ off21.extractLsb' 1 10 ++ off21.extractLsb' 11 1 ++ off21.extractLsb' 12 8 ++ rd
      ++ op) i = _
  simp only [BitVec.getLsbD_append, BitVec.getLsbD_extractLsb']
  interval_cases i <;> simp

/-! ### Bits of the scattered immediates the decoder gathers -/

theorem bits_immSOf (w : Word) (i : Nat) (hi : i < 12) :
    (immSOf w).getLsbD i = if i < 5 then w.getLsbD (i + 7) else w.getLsbD (i + 20) := by
  change BitVec.getLsbD (w := 7 + 5) (w.extractLsb' 25 7 ++ w.extractLsb' 7 5) i = _
  simp only [BitVec.getLsbD_append, BitVec.getLsbD_extractLsb']
  interval_cases i <;> simp

theorem bits_immSBOf (w : Word) (i : Nat) (hi : i < 13) : (immSBOf w).getLsbD i =
    if i < 1 then false else if i < 5 then w.getLsbD (i + 7) else if i < 11 then w.getLsbD (i + 20)
    else if i < 12 then w.getLsbD 7 else w.getLsbD 31 := by
  change BitVec.getLsbD (w := 1 + 1 + 6 + 4 + 1)
    (w.extractLsb' 31 1 ++ w.extractLsb' 7 1 ++ w.extractLsb' 25 6 ++ w.extractLsb' 8 4 ++ 0#1) i = _
  simp only [BitVec.getLsbD_append, BitVec.getLsbD_extractLsb']
  interval_cases i <;> simp

theorem bits_immUJOf (w : Word) (i : Nat) (hi : i < 21) : (immUJOf w).getLsbD i =
    if i < 1 then false else if i < 11 then w.getLsbD (i + 20) else if i < 12 then w.getLsbD 20
    else if i < 20 then w.getLsbD i else w.getLsbD 31 := by
  change BitVec.getLsbD (w := 1 + 8 + 1 + 10 + 1)
    (w.extractLsb' 31 1 ++ w.extractLsb' 12 8 ++ w.extractLsb' 20 1 ++ w.extractLsb' 21 10 ++ 0#1) i = _
  simp only [BitVec.getLsbD_append, BitVec.getLsbD_extractLsb']
  interval_cases i <;> simp

/-- A decoded branch offset is even (R90). -/
theorem immSBOf_even (w : Word) : (immSBOf w).getLsbD 0 = false := (bits_immSBOf w 0 (by decide)).trans rfl

/-- A decoded JAL offset is even (R92). -/
theorem immUJOf_even (w : Word) : (immUJOf w).getLsbD 0 = false := (bits_immUJOf w 0 (by decide)).trans rfl

/-! ### What the extractors read back from an encoded word -/

theorem fields_encodeR :
    opcodeOf (encodeR f7 rs2 rs1 f3 rd op) = op ∧ rdOf (encodeR f7 rs2 rs1 f3 rd op) = rd ∧
    funct3Of (encodeR f7 rs2 rs1 f3 rd op) = f3 ∧ rs1Of (encodeR f7 rs2 rs1 f3 rd op) = rs1 ∧
    rs2Of (encodeR f7 rs2 rs1 f3 rd op) = rs2 ∧ funct7Of (encodeR f7 rs2 rs1 f3 rd op) = f7 := by
  refine ⟨?_, ?_, ?_, ?_, ?_, ?_⟩ <;> apply BitVec.eq_of_getLsbD_eq <;> intro i hi <;>
    simp only [opcodeOf, rdOf, funct3Of, rs1Of, rs2Of, funct7Of, BitVec.getLsbD_extractLsb', bits_encodeR] <;>
    interval_cases i <;> simp

theorem fields_encodeI :
    opcodeOf (encodeI imm rs1 f3 rd op) = op ∧ rdOf (encodeI imm rs1 f3 rd op) = rd ∧
    funct3Of (encodeI imm rs1 f3 rd op) = f3 ∧ rs1Of (encodeI imm rs1 f3 rd op) = rs1 ∧
    immIOf (encodeI imm rs1 f3 rd op) = imm := by
  refine ⟨?_, ?_, ?_, ?_, ?_⟩ <;> apply BitVec.eq_of_getLsbD_eq <;> intro i hi <;>
    simp only [opcodeOf, rdOf, funct3Of, rs1Of, immIOf, BitVec.getLsbD_extractLsb', bits_encodeI] <;>
    interval_cases i <;> simp

theorem fields_encodeS :
    opcodeOf (encodeS imm rs2 rs1 f3 op) = op ∧ funct3Of (encodeS imm rs2 rs1 f3 op) = f3 ∧
    rs1Of (encodeS imm rs2 rs1 f3 op) = rs1 ∧ rs2Of (encodeS imm rs2 rs1 f3 op) = rs2 := by
  refine ⟨?_, ?_, ?_, ?_⟩ <;> apply BitVec.eq_of_getLsbD_eq <;> intro i hi <;>
    simp only [opcodeOf, funct3Of, rs1Of, rs2Of, BitVec.getLsbD_extractLsb'] <;>
    interval_cases i <;> (rw [bits_encodeS _ _ _ _ _ _ (by decide)]; simp)

/-- The two parts of a store's displacement come back in place (R89, R94). -/
theorem immSOf_encodeS : immSOf (encodeS imm rs2 rs1 f3 op) = imm := by
  apply BitVec.eq_of_getLsbD_eq
  intro i hi
  rw [bits_immSOf _ _ hi]
  interval_cases i <;> simp only [Nat.reduceLT, if_true, if_false, Nat.reduceAdd] <;>
    (rw [bits_encodeS _ _ _ _ _ _ (by decide)]; simp)

theorem fields_encodeSB :
    opcodeOf (encodeSB off13 rs2 rs1 f3 op) = op ∧ funct3Of (encodeSB off13 rs2 rs1 f3 op) = f3 ∧
    rs1Of (encodeSB off13 rs2 rs1 f3 op) = rs1 ∧ rs2Of (encodeSB off13 rs2 rs1 f3 op) = rs2 := by
  refine ⟨?_, ?_, ?_, ?_⟩ <;> apply BitVec.eq_of_getLsbD_eq <;> intro i hi <;>
    simp only [opcodeOf, funct3Of, rs1Of, rs2Of, BitVec.getLsbD_extractLsb'] <;>
    interval_cases i <;> (rw [bits_encodeSB _ _ _ _ _ _ (by decide)]; simp)

/-- The scattered bits of an even branch offset come back in place (R90, R94). -/
theorem immSBOf_encodeSB (h : off13.getLsbD 0 = false) : immSBOf (encodeSB off13 rs2 rs1 f3 op) = off13 := by
  apply BitVec.eq_of_getLsbD_eq
  intro i hi
  rw [bits_immSBOf _ _ hi]
  interval_cases i <;> simp only [Nat.reduceLT, if_true, if_false, Nat.reduceAdd] <;>
    first | exact h.symm | (rw [bits_encodeSB _ _ _ _ _ _ (by decide)]; simp)

theorem fields_encodeU :
    opcodeOf (encodeU imm20 rd op) = op ∧ rdOf (encodeU imm20 rd op) = rd ∧ immUOf (encodeU imm20 rd op) = imm20 := by
  refine ⟨?_, ?_, ?_⟩ <;> apply BitVec.eq_of_getLsbD_eq <;> intro i hi <;>
    simp only [opcodeOf, rdOf, immUOf, BitVec.getLsbD_extractLsb', bits_encodeU] <;> interval_cases i <;> simp

theorem fields_encodeUJ : opcodeOf (encodeUJ off21 rd op) = op ∧ rdOf (encodeUJ off21 rd op) = rd := by
  refine ⟨?_, ?_⟩ <;> apply BitVec.eq_of_getLsbD_eq <;> intro i hi <;>
    simp only [opcodeOf, rdOf, BitVec.getLsbD_extractLsb'] <;> interval_cases i <;> (rw [bits_encodeUJ _ _ _ _ (by decide)]; simp)

/-- The scattered bits of an even JAL offset come back in place (R92, R94). -/
theorem immUJOf_encodeUJ (h : off21.getLsbD 0 = false) : immUJOf (encodeUJ off21 rd op) = off21 := by
  apply BitVec.eq_of_getLsbD_eq
  intro i hi
  rw [bits_immUJOf _ _ hi]
  interval_cases i <;> simp only [Nat.reduceLT, if_true, if_false, Nat.reduceAdd] <;>
    first | exact h.symm | (rw [bits_encodeUJ _ _ _ _ (by decide)]; simp)

/-! ### A word is the encoding of its own fields -/

theorem encodeR_fields (w : Word) :
    encodeR (funct7Of w) (rs2Of w) (rs1Of w) (funct3Of w) (rdOf w) (opcodeOf w) = w := by
  apply BitVec.eq_of_getLsbD_eq
  intro k hk
  rw [bits_encodeR _ _ _ _ _ _ k]
  interval_cases k <;> simp [funct7Of, rs2Of, rs1Of, funct3Of, rdOf, opcodeOf]

theorem encodeI_fields (w : Word) :
    encodeI (immIOf w) (rs1Of w) (funct3Of w) (rdOf w) (opcodeOf w) = w := by
  apply BitVec.eq_of_getLsbD_eq
  intro k hk
  rw [bits_encodeI _ _ _ _ _ k]
  interval_cases k <;> simp [immIOf, rs1Of, funct3Of, rdOf, opcodeOf]

theorem encodeS_fields (w : Word) :
    encodeS (immSOf w) (rs2Of w) (rs1Of w) (funct3Of w) (opcodeOf w) = w := by
  apply BitVec.eq_of_getLsbD_eq
  intro k hk
  rw [bits_encodeS _ _ _ _ _ k hk]
  interval_cases k <;> simp only [Nat.reduceLT, if_true, if_false, Nat.reduceSub] <;>
    first | (rw [bits_immSOf _ _ (by decide)]; simp) | simp [rs2Of, rs1Of, funct3Of, opcodeOf]

theorem encodeSB_fields (w : Word) :
    encodeSB (immSBOf w) (rs2Of w) (rs1Of w) (funct3Of w) (opcodeOf w) = w := by
  apply BitVec.eq_of_getLsbD_eq
  intro k hk
  rw [bits_encodeSB _ _ _ _ _ k hk]
  interval_cases k <;> simp only [Nat.reduceLT, if_true, if_false, Nat.reduceSub] <;>
    first | (rw [bits_immSBOf _ _ (by decide)]; simp) | simp [rs2Of, rs1Of, funct3Of, opcodeOf]

theorem encodeU_fields (w : Word) :
    encodeU (immUOf w) (rdOf w) (opcodeOf w) = w := by
  apply BitVec.eq_of_getLsbD_eq
  intro k hk
  rw [bits_encodeU _ _ _ k]
  interval_cases k <;> simp [immUOf, rdOf, opcodeOf]

theorem encodeUJ_fields (w : Word) :
    encodeUJ (immUJOf w) (rdOf w) (opcodeOf w) = w := by
  apply BitVec.eq_of_getLsbD_eq
  intro k hk
  rw [bits_encodeUJ _ _ _ k hk]
  interval_cases k <;> simp only [Nat.reduceLT, if_true, if_false, Nat.reduceSub] <;>
    first | (rw [bits_immUJOf _ _ (by decide)]; simp) | simp [rdOf, opcodeOf]

/-! ### Under the row's mask only the selector values are left (R95) -/

theorem mask_encodeR : encodeR f7 rs2 rs1 f3 rd op &&& 0xFE00707F#32 = encodeR f7 0 0 f3 0 op := by
  apply BitVec.eq_of_getLsbD_eq
  intro i hi
  rw [BitVec.getLsbD_and, bits_encodeR, bits_encodeR]
  interval_cases i <;> simp

theorem mask_encodeI : encodeI imm rs1 f3 rd op &&& 0x0000707F#32 = encodeI 0 0 f3 0 op := by
  apply BitVec.eq_of_getLsbD_eq
  intro i hi
  rw [BitVec.getLsbD_and, bits_encodeI, bits_encodeI]
  interval_cases i <;> simp

theorem mask_encodeS : encodeS imm rs2 rs1 f3 op &&& 0x0000707F#32 = encodeS 0 0 0 f3 op := by
  apply BitVec.eq_of_getLsbD_eq
  intro i hi
  rw [BitVec.getLsbD_and, bits_encodeS _ _ _ _ _ _ hi, bits_encodeS _ _ _ _ _ _ hi]
  interval_cases i <;> simp

theorem mask_encodeSB : encodeSB off13 rs2 rs1 f3 op &&& 0x0000707F#32 = encodeSB 0 0 0 f3 op := by
  apply BitVec.eq_of_getLsbD_eq
  intro i hi
  rw [BitVec.getLsbD_and, bits_encodeSB _ _ _ _ _ _ hi, bits_encodeSB _ _ _ _ _ _ hi]
  interval_cases i <;> simp

theorem mask_encodeU : encodeU imm20 rd op &&& 0x0000007F#32 = encodeU 0 0 op := by
  apply BitVec.eq_of_getLsbD_eq
  intro i hi
  rw [BitVec.getLsbD_and, bits_encodeU, bits_encodeU]
  interval_cases i <;> simp

theorem mask_encodeUJ : encodeUJ off21 rd op &&& 0x0000007F#32 = encodeUJ 0 0 op := by
  apply BitVec.eq_of_getLsbD_eq
  intro i hi
  rw [BitVec.getLsbD_and, bits_encodeUJ _ _ _ _ hi, bits_encodeUJ _ _ _ _ hi]
  interval_cases i <;> simp

/-! ### The mnemonic table and the instruction (R95 to R97) -/

/-- The list names every mnemonic. -/
theorem mem_all (m : Mnemonic) : m ∈ Mnemonic.all := by cases m <;> decide

/-- An instruction is its mnemonic and its operands. -/
theorem instr_operands (i : Instr) : i.mnemonic.instr i.operands = some i := by cases i <;> rfl

/-- A mnemonic and operands of its shape are the instruction's own. -/
theorem instr_eq_some {m : Mnemonic} {o : Operands} {i : Instr} (h : m.instr o = some i) :
    i.mnemonic = m ∧ i.operands = o := by
  cases m <;> cases o <;> cases h <;> exact ⟨rfl, rfl⟩

/-- The format of the table is the shape of the mnemonic: a word's operands by that format always fit. -/
theorem instr_operandsOf (m : Mnemonic) (w : Word) : ∃ i, m.instr (operandsOf (tableRow m).format w) = some i := by
  cases m <;> exact ⟨_, rfl⟩

/-- What the lookup finds has the selector values looked up. -/
theorem selects_of_lookup {op f7 : BitVec 7} {f3 : BitVec 3} {m : Mnemonic} (h : lookupMnemonic op f3 f7 = some m) :
    (tableRow m).selects op f3 f7 = true :=
  List.find?_some (p := fun m => (tableRow m).selects op f3 f7) h

/-- A row's own selector values find its mnemonic: no row before it has them. -/
theorem lookup_of_selects {op f7 : BitVec 7} {f3 : BitVec 3} {m : Mnemonic} (h : (tableRow m).selects op f3 f7 = true) :
    lookupMnemonic op f3 f7 = some m := by
  obtain ⟨⟨ho, h3⟩, h7⟩ : ((tableRow m).opcode = op ∧ (tableRow m).funct3.all (· == f3) = true) ∧
      (tableRow m).funct7.all (· == f7) = true := by simpa [TableRow.selects] using h
  subst ho
  cases m <;> simp only [tableRow, Option.all_some, Option.all_none, beq_iff_eq] at h3 h7 <;> (try subst h3) <;>
    (try subst h7) <;> rfl

/-- The decoder accepts a word exactly when a row selects it, and answers that row's mnemonic with the word's operands by
that row's format. -/
theorem decode_eq_ok {w : Word} {i : Instr} : decode w = .ok i ↔
    i.row.selects (opcodeOf w) (funct3Of w) (funct7Of w) = true ∧ i.operands = operandsOf i.row.format w := by
  constructor
  · intro h
    unfold decode decodeWith at h
    cases hl : lookupMnemonic (opcodeOf w) (funct3Of w) (funct7Of w) with
    | none => simp [hl] at h
    | some m =>
      obtain ⟨j, hj⟩ := instr_operandsOf m w
      simp only [hl, hj] at h
      cases h
      obtain ⟨rfl, ho⟩ := instr_eq_some hj
      exact ⟨selects_of_lookup hl, ho⟩
  · rintro ⟨hs, ho⟩
    unfold decode decodeWith
    simp only [lookup_of_selects hs]
    rw [show operandsOf (tableRow i.mnemonic).format w = i.operands from ho.symm, instr_operands]

/-- The decoder rejects a word exactly when no row selects it, by the name that `unsupported` gives. -/
theorem decode_eq_error {w : Word} {e : DecodeError} : decode w = .error e ↔
    (∀ m, (tableRow m).selects (opcodeOf w) (funct3Of w) (funct7Of w) = false) ∧ e = unsupported w := by
  cases hl : lookupMnemonic (opcodeOf w) (funct3Of w) (funct7Of w) with
  | none =>
    have hn : ∀ m, (tableRow m).selects (opcodeOf w) (funct3Of w) (funct7Of w) = false := fun m => by
      by_contra hs
      rw [lookup_of_selects (by simpa using hs)] at hl
      cases hl
    simp [decode, decodeWith, hl, hn, eq_comm]
  | some m =>
    obtain ⟨j, hj⟩ := instr_operandsOf m w
    have hs := selects_of_lookup hl
    constructor
    · intro h
      simp [decode, decodeWith, hl, hj] at h
    · intro h
      rw [h.1 m] at hs
      cases hs

/-! ### Encoding and decoding by the table -/

/-- The selector values that a row which selects a word has are the word's. -/
theorem selectors_of_selects {row : TableRow} {op f7 : BitVec 7} {f3 : BitVec 3} (h : row.selects op f3 f7 = true) :
    row.opcode = op ∧ (∀ f, row.funct3 = some f → f = f3) ∧ ∀ f, row.funct7 = some f → f = f7 := by
  obtain ⟨⟨ho, h3⟩, h7⟩ : (row.opcode = op ∧ row.funct3.all (· == f3) = true) ∧ row.funct7.all (· == f7) = true := by
    simpa [TableRow.selects] using h
  refine ⟨ho, fun f hf => ?_, fun f hf => ?_⟩
  · rw [hf] at h3; simpa using h3
  · rw [hf] at h7; simpa using h7

/-- A word that a row selects is that row's encoding of the word's operands. -/
theorem encodeWith_operandsOf {m : Mnemonic} {w : Word}
    (h : (tableRow m).selects (opcodeOf w) (funct3Of w) (funct7Of w) = true) :
    encodeWith (tableRow m) (operandsOf (tableRow m).format w) = w := by
  obtain ⟨ho, h3, h7⟩ := selectors_of_selects h
  cases m <;>
    simp only [tableRow, Option.some.injEq, forall_eq', reduceCtorEq, false_implies, implies_true] at ho h3 h7 <;>
    simp only [tableRow, operandsOf, encodeWith, Option.getD_some, ho, h3, h7, encodeR_fields, encodeI_fields,
      encodeS_fields, encodeSB_fields, encodeU_fields, encodeUJ_fields]

/-- The word of an instruction is selected by the instruction's row. -/
theorem selects_encode (i : Instr) :
    i.row.selects (opcodeOf (encode i)) (funct3Of (encode i)) (funct7Of (encode i)) = true := by
  cases i <;> simp only [encode, encodeWith, Instr.row, Instr.mnemonic, Instr.operands, tableRow, TableRow.selects,
    Option.getD_some, fields_encodeR, fields_encodeI, fields_encodeS, fields_encodeSB, fields_encodeU,
    fields_encodeUJ] <;> rfl

/-- The word of a well-formed instruction holds the instruction's operands. -/
theorem operandsOf_encode {i : Instr} (h : i.wf = true) : operandsOf i.row.format (encode i) = i.operands := by
  cases i <;> simp only [encode, encodeWith, Instr.row, Instr.mnemonic, Instr.operands, tableRow, operandsOf,
    fields_encodeR, fields_encodeI, fields_encodeS, fields_encodeSB, fields_encodeU, fields_encodeUJ, immSOf_encodeS,
    Instr.wf, Bool.not_eq_true'] at h ⊢
  case beq | bne | blt | bge => rw [immSBOf_encodeSB _ _ _ _ _ h]
  case jal => rw [immUJOf_encodeUJ _ _ _ h]

end Sys2Proof
end

