-- ==== Sys2Proof/Laws/Memory.lean ====
section
/-! SUPPORT. The laws of tables, of data memory and of the instruction map: read after write, and that every
operation keeps the canonical form. -/

namespace Sys2Proof.Machine

/-! ### Tables -/

theorem lookup_erase {α : Type} (m : List (Nat × α)) (k j : Nat) :
    Table.lookup (Table.erase m k) j = if j = k then none else Table.lookup m j := by
  induction m with
  | nil => simp [Table.erase, Table.lookup]
  | cons c m ih =>
    obtain ⟨i, w⟩ := c
    unfold Table.erase at ih ⊢
    by_cases hik : i = k
    · subst hik
      by_cases hj : j = i <;> simp_all [Table.lookup]
    · by_cases hj : j = k
      · subst hj
        have : ¬ j = i := fun e => hik e.symm
        simp_all [Table.lookup]
      · by_cases hji : j = i <;> simp_all [Table.lookup]

theorem lookup_place {α : Type} (m : List (Nat × α)) (k j : Nat) (v : Option α) (h : Table.lookup m k = none) :
    Table.lookup (Table.place m k v) j = if j = k then v else Table.lookup m j := by
  induction m with
  | nil => cases v <;> by_cases hj : j = k <;> simp [Table.place, Table.lookup, hj]
  | cons c m ih =>
    obtain ⟨i, w⟩ := c
    have hki : ¬ k = i := fun e => by simp [Table.lookup, e] at h
    have hk : Table.lookup m k = none := by simpa [Table.lookup, hki] using h
    unfold Table.place
    split
    · cases v <;> by_cases hj : j = k <;> simp_all [Table.lookup]
    · by_cases hji : j = i
      · subst hji
        have : ¬ j = k := fun e => hki e.symm
        simp [Table.lookup, this]
      · simp [Table.lookup, hji, ih hk]

/-- After `put`, key `k` holds exactly `v` and every other key holds what it held. -/
theorem lookup_put {α : Type} (m : List (Nat × α)) (k j : Nat) (v : Option α) :
    Table.lookup (Table.put m k v) j = if j = k then v else Table.lookup m j := by
  unfold Table.put
  rw [lookup_place _ _ _ _ (by simp [lookup_erase]), lookup_erase]
  split <;> rfl

theorem mem_place {α : Type} {m : List (Nat × α)} {k : Nat} {v : Option α} {c : Nat × α}
    (h : c ∈ Table.place m k v) : c ∈ m ∨ v = some c.2 ∧ c.1 = k := by
  induction m with
  | nil => cases v <;> simp_all [Table.place]
  | cons d m ih =>
    obtain ⟨i, w⟩ := d
    unfold Table.place at h
    split at h
    · cases v <;> simp_all
      rcases h with rfl | h
      · exact .inr ⟨rfl, rfl⟩
      · exact .inl h
    · rcases List.mem_cons.mp h with rfl | h
      · exact .inl (by simp)
      · rcases ih h with h | h
        · exact .inl (by simp [h])
        · exact .inr h

theorem pairwise_place {α : Type} {m : List (Nat × α)} {k : Nat} {v : Option α}
    (hm : m.Pairwise fun c d => c.1 < d.1) (hk : ∀ c ∈ m, c.1 ≠ k) :
    (Table.place m k v).Pairwise fun c d => c.1 < d.1 := by
  induction m with
  | nil => cases v <;> simp [Table.place]
  | cons d m ih =>
    obtain ⟨i, w⟩ := d
    obtain ⟨h1, h2⟩ := List.pairwise_cons.mp hm
    unfold Table.place
    split
    next hlt =>
      cases v with
      | none => simpa using hm
      | some x =>
        refine List.pairwise_cons.mpr ⟨fun c hc => ?_, hm⟩
        rcases List.mem_cons.mp hc with rfl | hc
        · exact hlt
        · exact Nat.lt_trans hlt (h1 c hc)
    next hge =>
      refine List.pairwise_cons.mpr ⟨fun c hc => ?_, ih h2 fun c hc => hk c (by simp [hc])⟩
      rcases mem_place hc with hc | ⟨-, hc⟩
      · exact h1 c hc
      · have := hk (i, w) (by simp)
        simp only at this hge ⊢
        omega

theorem mem_put {α : Type} {m : List (Nat × α)} {k : Nat} {v : Option α} {c : Nat × α}
    (h : c ∈ Table.put m k v) : c ∈ m ∨ v = some c.2 ∧ c.1 = k := by
  rcases mem_place h with h | h
  · exact .inl (List.mem_of_mem_filter h)
  · exact .inr h

theorem pairwise_put {α : Type} {m : List (Nat × α)} (k : Nat) (v : Option α)
    (hm : m.Pairwise fun c d => c.1 < d.1) : (Table.put m k v).Pairwise fun c d => c.1 < d.1 := by
  refine pairwise_place (hm.sublist List.filter_sublist) fun c hc => ?_
  simpa using (List.mem_filter.mp hc).2

/-! ### Data memory -/

/-- Read after write of one byte: the written address gives the value, every other address what it gave. -/
theorem byteAt_setByte (m : Memory) (a b : Word) (v : Byte) :
    (m.setByte a v).byteAt b = if b = a then v else m.byteAt b := by
  unfold Memory.byteAt Memory.setByte
  rw [lookup_put]
  by_cases h : b = a
  · subst h
    by_cases hv : v = Config.unlistedByte <;> simp [hv]
  · have : ¬ b.toNat = a.toNat := fun e => h (BitVec.eq_of_toNat_eq e)
    simp [h, this]

theorem wf_setByte {m : Memory} (hm : m.wf) (a : Word) (v : Byte) : (m.setByte a v).wf := by
  refine ⟨pairwise_put _ _ hm.1, fun c hc => ?_⟩
  rcases mem_put hc with hc | ⟨hv, hk⟩
  · exact hm.2 c hc
  · refine ⟨hk ▸ a.isLt, fun e => ?_⟩
    split at hv
    · cases hv
    next hne => cases hv; exact hne e

/-- `MemWrite` of any number of bytes keeps the canonical form. -/
theorem wf_store {w : Nat} {m : Memory} (hm : m.wf) (a : Word) (v : BitVec w) (n : Nat) : (m.store a v n).wf := by
  induction n with
  | zero => exact hm
  | succ n ih => exact wf_setByte ih _ _

/-- What a byte reads as after `MemWrite(a, n, v)` (20_memory.md R54): inside the n bytes from `a`, counted modulo
2^32, the byte of `v` at its place; everywhere else what it was. -/
theorem byteAt_store {w : Nat} (m : Memory) (a b : Word) (v : BitVec w) (n : Nat) (hn : n ≤ 2 ^ 32) :
    (m.store a v n).byteAt b = if (b - a).toNat < n then v.extractLsb' (8 * (b - a).toNat) 8 else m.byteAt b := by
  induction n with
  | zero => simp [Memory.store]
  | succ n ih =>
    have key : b = a + BitVec.ofNat 32 n ↔ (b - a).toNat = n := by
      constructor
      · rintro rfl
        rw [BitVec.add_comm, BitVec.add_sub_cancel, BitVec.toNat_ofNat]
        omega
      · intro h
        have : b - a = BitVec.ofNat 32 n := by
          apply BitVec.eq_of_toNat_eq; rw [h, BitVec.toNat_ofNat]; omega
        rw [← this, BitVec.add_comm, BitVec.sub_add_cancel]
    unfold Memory.store
    rw [byteAt_setByte, ih (by omega)]
    by_cases h : (b - a).toNat = n
    · rw [if_pos (key.mpr h), if_pos (by omega), h]
    · rw [if_neg (fun e => h (key.mp e))]
      by_cases h2 : (b - a).toNat < n
      · rw [if_pos h2, if_pos (by omega)]
      · rw [if_neg h2, if_neg (by omega)]

/-- Byte i of `MemRead(a, n)` is the byte at `a + i` modulo 2^32 (20_memory.md R53). -/
theorem byte_of_load (m : Memory) (a : Word) (n i : Nat) (hi : i < n) :
    (m.load a n).extractLsb' (8 * i) 8 = m.byteAt (a + BitVec.ofNat 32 i) := by
  induction n with
  | zero => omega
  | succ n ih =>
    apply BitVec.eq_of_getLsbD_eq
    intro j hj
    unfold Memory.load
    simp only [BitVec.getLsbD_extractLsb', BitVec.getLsbD_cast, BitVec.getLsbD_append, hj, decide_true, Bool.true_and]
    by_cases h : i = n
    · subst h
      have h1 : ¬ (8 * i + j < 8 * i) := by omega
      simp [h1]
    · have h1 : 8 * i + j < 8 * n := by omega
      have := congrArg (fun x => x.getLsbD j) (ih (by omega))
      simp only [BitVec.getLsbD_extractLsb', hj, decide_true, Bool.true_and] at this
      rw [if_pos h1]
      exact this

/-- Two memories that agree on the n bytes from `a` give the same `MemRead`. -/
theorem load_congr {m m' : Memory} {a : Word} {n : Nat}
    (h : ∀ i < n, m'.byteAt (a + BitVec.ofNat 32 i) = m.byteAt (a + BitVec.ofNat 32 i)) : m'.load a n = m.load a n := by
  induction n with
  | zero => rfl
  | succ n ih =>
    unfold Memory.load
    rw [h n (by omega), ih fun i hi => h i (by omega)]

/-! ### The instruction map -/

theorem entry_setEntry (m : InstrMap) (a b w : Word) :
    (m.setEntry a w).entry b = if b = a then some w else m.entry b := by
  unfold InstrMap.entry InstrMap.setEntry
  rw [lookup_put]
  by_cases h : b = a
  · simp [h]
  · have : ¬ b.toNat = a.toNat := fun e => h (BitVec.eq_of_toNat_eq e)
    simp [h, this]

theorem wf_setEntry {m : InstrMap} (hm : m.wf) (a w : Word) : (m.setEntry a w).wf := by
  refine ⟨pairwise_put _ _ hm.1, fun c hc => ?_⟩
  rcases mem_put hc with hc | ⟨-, hk⟩
  · exact hm.2 c hc
  · exact hk ▸ a.isLt

/-- An address with no entry fetches as the all-zero word (20_memory.md R56). -/
theorem fetch_of_entry_none {m : InstrMap} {a : Word} (h : m.entry a = none) : m.fetch a = 0 := by
  simp [InstrMap.fetch, h]

theorem fetch_of_entry_some {m : InstrMap} {a w : Word} (h : m.entry a = some w) : m.fetch a = w := by
  simp [InstrMap.fetch, h]

/-! ### The loader -/

/-- A loader whose memories are in canonical form. -/
def Loader.wf (l : Loader) : Prop := l.mem.wf ∧ l.imem.wf

theorem wf_loaderLine {l l' : Loader} {x : Line} (hl : l.wf) (h : l.line x = some l') : l'.wf := by
  unfold Loader.line at h
  split at h
  · split at h
    · cases h; exact ⟨wf_setByte hl.1 _ _, hl.2⟩
    · cases h
  · split at h
    · cases h; exact hl
    · cases h; exact ⟨wf_store hl.1 _ _ _, wf_setEntry hl.2 _ _⟩

theorem wf_loaderLines {l l' : Loader} {xs : List Line} (hl : l.wf) (h : l.lines xs = some l') : l'.wf := by
  induction xs generalizing l with
  | nil => cases h; exact hl
  | cons x xs ih =>
    unfold Loader.lines at h
    split at h
    next l'' h' => exact ih (wf_loaderLine hl h') h
    · cases h

/-- The lines of a listing are read one after the other. -/
theorem loaderLines_append (l : Loader) (xs ys : List Line) :
    l.lines (xs ++ ys) = (l.lines xs).bind fun l' => l'.lines ys := by
  induction xs generalizing l with
  | nil => rfl
  | cons x xs ih =>
    simp only [List.cons_append, Loader.lines]
    cases l.line x with
    | none => rfl
    | some l' => exact ih l'

end Sys2Proof.Machine
end

