-- ==== Sys2Proof/Laws/State.lean ====
section
/-! SUPPORT. One lemma per field per state update, and what a register read gives after each. -/

namespace Sys2Proof.Machine

/-! ### setReg -/

@[simp] theorem setReg_pc (s : State) (r : Reg) (v : Word) : (s.setReg r v).pc = s.pc := by
  unfold State.setReg; split <;> rfl
@[simp] theorem setReg_mem (s : State) (r : Reg) (v : Word) : (s.setReg r v).mem = s.mem := by
  unfold State.setReg; split <;> rfl
@[simp] theorem setReg_imem (s : State) (r : Reg) (v : Word) : (s.setReg r v).imem = s.imem := by
  unfold State.setReg; split <;> rfl
@[simp] theorem setReg_cycle (s : State) (r : Reg) (v : Word) : (s.setReg r v).cycle = s.cycle := by
  unfold State.setReg; split <;> rfl
@[simp] theorem setReg_run (s : State) (r : Reg) (v : Word) : (s.setReg r v).run = s.run := by
  unfold State.setReg; split <;> rfl

/-- The hardwired register reads zero in every state (10_state.md R21). -/
@[simp] theorem reg_zero (s : State) : s.reg 0#5 = 0#32 := by simp [State.reg]

/-- A register read depends on the register cells only. -/
theorem reg_congr {s t : State} (h : t.regs = s.regs) (r : Reg) : t.reg r = s.reg r := by
  simp [State.reg, h]

/-- Read after write (R21, R22): the written register, unless it is x0, reads the value; every other is unchanged. -/
theorem reg_setReg (s : State) (r q : Reg) (v : Word) :
    (s.setReg r v).reg q = if q = r ∧ r ≠ 0 then v else s.reg q := by
  unfold State.setReg State.reg
  by_cases hr : r = 0#5
  · simp [hr]
  · by_cases hq : q = 0#5
    · have h0 : ¬ 0#5 = r := fun h => hr h.symm
      simp [hq, h0]
    · by_cases h : q = r
      · subst h; simp [hr]
      · have h' : ¬ r.toNat = q.toNat := fun e => h (BitVec.eq_of_toNat_eq e.symm)
        simp [hr, hq, h, h']

/-- A register write never touches the cell of the hardwired register. -/
theorem zeroCell_setReg (s : State) (r : Reg) (v : Word) : (s.setReg r v).regs[0] = s.regs[0] := by
  unfold State.setReg
  by_cases hr : r = 0#5
  · simp [hr]
  · have h' : ¬ r.toNat = 0 := fun e => hr (BitVec.eq_of_toNat_eq e)
    simp [hr, h']

/-! ### goto -/

@[simp] theorem goto_pc (s : State) (a : Word) : (s.goto a).pc = a := rfl
@[simp] theorem goto_regs (s : State) (a : Word) : (s.goto a).regs = s.regs := rfl
@[simp] theorem goto_mem (s : State) (a : Word) : (s.goto a).mem = s.mem := rfl
@[simp] theorem goto_imem (s : State) (a : Word) : (s.goto a).imem = s.imem := rfl
@[simp] theorem goto_cycle (s : State) (a : Word) : (s.goto a).cycle = s.cycle := rfl
@[simp] theorem goto_run (s : State) (a : Word) : (s.goto a).run = s.run := rfl
@[simp] theorem goto_reg (s : State) (a : Word) (q : Reg) : (s.goto a).reg q = s.reg q := rfl

/-! ### writeBack: register write, then pc -/

@[simp] theorem writeBack_pc (s : State) (r : Reg) (v a : Word) : (s.writeBack r v a).pc = a := rfl
@[simp] theorem writeBack_mem (s : State) (r : Reg) (v a : Word) : (s.writeBack r v a).mem = s.mem := by
  simp [State.writeBack]
@[simp] theorem writeBack_imem (s : State) (r : Reg) (v a : Word) : (s.writeBack r v a).imem = s.imem := by
  simp [State.writeBack]
@[simp] theorem writeBack_cycle (s : State) (r : Reg) (v a : Word) : (s.writeBack r v a).cycle = s.cycle := by
  simp [State.writeBack]
@[simp] theorem writeBack_run (s : State) (r : Reg) (v a : Word) : (s.writeBack r v a).run = s.run := by
  simp [State.writeBack]
theorem writeBack_reg (s : State) (r q : Reg) (v a : Word) :
    (s.writeBack r v a).reg q = if q = r ∧ r ≠ 0 then v else s.reg q := by
  simp [State.writeBack, reg_setReg]
theorem zeroCell_writeBack (s : State) (r : Reg) (v a : Word) : (s.writeBack r v a).regs[0] = s.regs[0] := by
  simp [State.writeBack, zeroCell_setReg]

/-! ### storeBytes -/

@[simp] theorem storeBytes_regs {w : Nat} (s : State) (ea : Word) (n : Nat) (v : BitVec w) :
    (s.storeBytes ea n v).regs = s.regs := rfl
@[simp] theorem storeBytes_pc {w : Nat} (s : State) (ea : Word) (n : Nat) (v : BitVec w) :
    (s.storeBytes ea n v).pc = s.pcSeq := rfl
@[simp] theorem storeBytes_mem {w : Nat} (s : State) (ea : Word) (n : Nat) (v : BitVec w) :
    (s.storeBytes ea n v).mem = s.mem.store ea v n := rfl
@[simp] theorem storeBytes_imem {w : Nat} (s : State) (ea : Word) (n : Nat) (v : BitVec w) :
    (s.storeBytes ea n v).imem = s.imem := rfl
@[simp] theorem storeBytes_cycle {w : Nat} (s : State) (ea : Word) (n : Nat) (v : BitVec w) :
    (s.storeBytes ea n v).cycle = s.cycle := rfl
@[simp] theorem storeBytes_run {w : Nat} (s : State) (ea : Word) (n : Nat) (v : BitVec w) :
    (s.storeBytes ea n v).run = s.run := rfl
@[simp] theorem storeBytes_reg {w : Nat} (s : State) (ea : Word) (n : Nat) (v : BitVec w) (q : Reg) :
    (s.storeBytes ea n v).reg q = s.reg q := rfl

/-! ### raiseHalt and tick -/

@[simp] theorem raiseHalt_regs (s : State) (r : HaltReason) : (s.raiseHalt r).regs = s.regs := rfl
@[simp] theorem raiseHalt_pc (s : State) (r : HaltReason) : (s.raiseHalt r).pc = s.pc := rfl
@[simp] theorem raiseHalt_mem (s : State) (r : HaltReason) : (s.raiseHalt r).mem = s.mem := rfl
@[simp] theorem raiseHalt_imem (s : State) (r : HaltReason) : (s.raiseHalt r).imem = s.imem := rfl
@[simp] theorem raiseHalt_cycle (s : State) (r : HaltReason) : (s.raiseHalt r).cycle = s.cycle := rfl
@[simp] theorem raiseHalt_run (s : State) (r : HaltReason) : (s.raiseHalt r).run = .halted r := rfl
@[simp] theorem raiseHalt_reg (s : State) (r : HaltReason) (q : Reg) : (s.raiseHalt r).reg q = s.reg q := rfl

@[simp] theorem tick_regs (s : State) : s.tick.regs = s.regs := rfl
@[simp] theorem tick_pc (s : State) : s.tick.pc = s.pc := rfl
@[simp] theorem tick_mem (s : State) : s.tick.mem = s.mem := rfl
@[simp] theorem tick_imem (s : State) : s.tick.imem = s.imem := rfl
@[simp] theorem tick_cycle (s : State) : s.tick.cycle = s.cycle + 1 := rfl
@[simp] theorem tick_run (s : State) : s.tick.run = s.run := rfl
@[simp] theorem tick_reg (s : State) (q : Reg) : s.tick.reg q = s.reg q := rfl
@[simp] theorem tick_fetchWord (s : State) : s.tick.fetchWord = s.fetchWord := rfl

end Sys2Proof.Machine
end

