-- ==== Sys2Proof/Laws/Exec.lean ====
section
/-! SUPPORT. What an instruction, a cycle and a step can do, each said once. -/

namespace Sys2Proof.Machine

/-- Everything `writeResult` does. -/
theorem writeResult_eq (s : State) (rd : Reg) (v : Word) :
    s.writeResult rd v = .next (s.writeBack rd v s.pcSeq) := rfl

/-- Everything an instruction can do: write one register and move the pc; move the pc only; or store n of 1, 2, 4, 8
bytes and move to the sequential pc. -/
theorem exec_cases {i : Instr} {s t : State} (h : exec i s = .next t) :
    (∃ rd v a, t = s.writeBack rd v a) ∨ (∃ a, t = s.goto a) ∨
      (∃ (w : Nat) (ea : Word) (n : Nat) (v : BitVec w), n ≤ 8 ∧ t = s.storeBytes ea n v) := by
  cases i <;> injection h with h <;> subst h
  case beq | bne | blt | bge => exact .inr (.inl ⟨_, rfl⟩)
  case sb | sh | sw | sd => exact .inr (.inr ⟨_, _, _, _, by decide, rfl⟩)
  all_goals exact .inl ⟨_, _, _, rfl⟩

/-- What no instruction touches: the instruction map, the cycle counter, the run state, and the cell of the hardwired
register (10_state.md R22, R27, R28, R29). -/
theorem exec_untouched {i : Instr} {s t : State} (h : exec i s = .next t) :
    t.imem = s.imem ∧ t.cycle = s.cycle ∧ t.run = s.run ∧ t.regs[0] = s.regs[0] := by
  obtain ⟨rd, v, a, rfl⟩ | ⟨a, rfl⟩ | ⟨w, ea, n, v, -, rfl⟩ := exec_cases h
  · simp [zeroCell_writeBack]
  · simp
  · simp

/-- Every instruction keeps data memory in canonical form. -/
theorem exec_memWf {i : Instr} {s t : State} (h : exec i s = .next t) (hm : s.mem.wf) : t.mem.wf := by
  obtain ⟨rd, v, a, rfl⟩ | ⟨a, rfl⟩ | ⟨w, ea, n, v, -, rfl⟩ := exec_cases h
  · simpa using hm
  · exact hm
  · exact wf_store hm _ _ _

/-- The bytes of StoreData(DOUBLE, r) (45_load_store.md R230): the four of the register, then the four of the OPEN
parameter, whatever they are. -/
theorem storeDataDouble_byte (r : Word) (i : Nat) (hi : i < 8) :
    (storeDataDouble r).extractLsb' (8 * i) 8 =
      if i < 4 then r.extractLsb' (8 * i) 8 else (Config.sdUpper r).extractLsb' (8 * (i - 4)) 8 := by
  ext k hk
  unfold storeDataDouble
  by_cases h : i < 4
  · simp only [h, if_true, BitVec.getElem_extractLsb']
    rw [BitVec.getLsbD_append, if_pos (by omega)]
  · simp only [h, if_false, BitVec.getElem_extractLsb']
    rw [BitVec.getLsbD_append, if_neg (by omega)]
    congr 1; omega

/-- Everything a cycle that answers a next state can have done: one of the three halts, in their order, or one
decoded instruction (60_exceptions.md R245, 40_decode_control.md R131). -/
theorem runCycle_cases {s t : State} (h : s.runCycle = .next t) :
    (ceilingExceeded (s.cycle + 1) = true ∧ t = s.tick.raiseHalt .cycleLimit) ∨
    (ceilingExceeded (s.cycle + 1) = false ∧ s.fetchWord = Config.haltWord ∧ t = s.tick.raiseHalt .normal) ∨
    (ceilingExceeded (s.cycle + 1) = false ∧ s.fetchWord ≠ Config.haltWord ∧
      (∃ e, decode s.fetchWord = .error e) ∧ t = s.tick.raiseHalt .decodeError) ∨
    (ceilingExceeded (s.cycle + 1) = false ∧ s.fetchWord ≠ Config.haltWord ∧
      ∃ i, decode s.fetchWord = .ok i ∧ exec i s.tick = .next t) := by
  unfold State.runCycle at h
  by_cases hc : ceilingExceeded (s.cycle + 1) = true
  · rw [if_pos (by exact hc)] at h
    injection h with h; exact .inl ⟨hc, h.symm⟩
  · rw [if_neg (by exact hc)] at h
    have hc : ceilingExceeded (s.cycle + 1) = false := by simpa using hc
    by_cases hz : s.fetchWord = Config.haltWord
    · rw [if_pos (by exact hz)] at h
      injection h with h; exact .inr (.inl ⟨hc, hz, h.symm⟩)
    · rw [if_neg (by exact hz)] at h
      unfold State.decodeAndExecute at h
      split at h
      next e he => injection h with h; exact .inr (.inr (.inl ⟨hc, hz, ⟨e, he⟩, h.symm⟩))
      next i hi => exact .inr (.inr (.inr ⟨hc, hz, i, hi, h⟩))

/-- Each of the four ways a cycle can go, forwards: the ceiling halt. -/
theorem runCycle_ceiling {s : State} (hc : ceilingExceeded (s.cycle + 1) = true) :
    s.runCycle = .next (s.tick.raiseHalt .cycleLimit) := by
  unfold State.runCycle; rw [if_pos (by exact hc)]

/-- The normal halt. -/
theorem runCycle_normal {s : State} (hc : ceilingExceeded (s.cycle + 1) = false)
    (hz : s.fetchWord = Config.haltWord) : s.runCycle = .next (s.tick.raiseHalt .normal) := by
  unfold State.runCycle
  rw [if_neg (by simpa using hc), if_pos (by exact hz)]

/-- The decode-error halt. -/
theorem runCycle_decodeError {s : State} {e : DecodeError} (hc : ceilingExceeded (s.cycle + 1) = false)
    (hz : s.fetchWord ≠ Config.haltWord) (hd : decode s.fetchWord = .error e) :
    s.runCycle = .next (s.tick.raiseHalt .decodeError) := by
  unfold State.runCycle
  rw [if_neg (by simpa using hc), if_neg (by exact hz)]
  simp [State.decodeAndExecute, hd]

/-- A decoded instruction is executed on the state whose counter has gone up. -/
theorem runCycle_exec {s : State} {i : Instr} (hc : ceilingExceeded (s.cycle + 1) = false)
    (hz : s.fetchWord ≠ Config.haltWord) (hd : decode s.fetchWord = .ok i) : s.runCycle = exec i s.tick := by
  unfold State.runCycle
  rw [if_neg (by simpa using hc), if_neg (by exact hz)]
  simp [State.decodeAndExecute, hd]

/-- A step that answers a next state is a cycle of a running core. -/
theorem step_next {s t : State} (h : step s = .next t) : s.run = .running ∧ s.runCycle = .next t := by
  unfold step at h
  split at h
  next hr => exact ⟨hr, h⟩
  · cases h

/-- A cycle of a running core is the step. -/
theorem step_of_running {s : State} (h : s.run = .running) : step s = s.runCycle := by
  simp [step, h]

/-- The ceiling test is the comparison with the ceiling plus the OPEN slack (60_exceptions.md R244, D11). -/
theorem ceilingExceeded_iff (n : Nat) :
    ceilingExceeded n = true ↔ Config.cycleCeiling + Config.ceilingSlack.val < n := by
  unfold ceilingExceeded
  simp
  omega

/-- The run of a machine that answers first with a next state goes on from it. -/
theorem runFor_succ {n : Nat} {s t : State} (h : step s = .next t) : runFor (n + 1) s = runFor n t := by
  simp [runFor, h]

/-- A run of n steps that answers is n steps that answer. -/
theorem runFor_succ_inv {n : Nat} {s u : State} (h : runFor (n + 1) s = .next u) :
    ∃ t, step s = .next t ∧ runFor n t = .next u := by
  cases hs : step s with
  | next t => exact ⟨t, rfl, by simpa [runFor, hs] using h⟩
  | fault r => simp [runFor, hs] at h
  | refused r => simp [runFor, hs] at h

/-- A run of a machine takes its first step, then goes on. -/
theorem coreRun_succ (M : Host.Core) (n : Nat) (s : M.State) :
    M.run (n + 1) s = match M.step s with
      | .next t => M.run n t
      | .fault r => .fault r
      | .refused r => .refused r := rfl

/-- `runFor` is the host's run of the machine. -/
theorem runFor_eq_core (n : Nat) (s : State) : runFor n s = Host.Core.run Sys2Proof.core n s := by
  induction n generalizing s with
  | zero => rfl
  | succ n ih =>
    refine Eq.trans ?_ (coreRun_succ Sys2Proof.core n s).symm
    unfold runFor
    cases h : step s with
    | next t => rw [show Sys2Proof.core.step s = .next t from h]; exact ih t
    | fault r => rw [show Sys2Proof.core.step s = .fault r from h]; rfl
    | refused r => rw [show Sys2Proof.core.step s = .refused r from h]; rfl

end Sys2Proof.Machine
end

