-- ==== Sys2Proof/Laws/PerInstr.lean ====
section
/-! SUPPORT. Statements per instruction. RowMatch: the word of the instruction, under its row's mask, is its row's
match value (30_encoding.md R95). -/

namespace Sys2Proof.Laws.RowMatch

def Statement (i : Instr) : Prop := encode i &&& i.row.mask = i.row.pattern

theorem add (rd rs1 rs2 : Reg) : Statement (.add rd rs1 rs2) :=
  (mask_encodeR 0b0000000#7 0b000#3 _ _ _ 0b0110011#7).trans rfl
theorem sub (rd rs1 rs2 : Reg) : Statement (.sub rd rs1 rs2) :=
  (mask_encodeR 0b0100000#7 0b000#3 _ _ _ 0b0110011#7).trans rfl
theorem sll (rd rs1 rs2 : Reg) : Statement (.sll rd rs1 rs2) :=
  (mask_encodeR 0b0000000#7 0b001#3 _ _ _ 0b0110011#7).trans rfl
theorem slt (rd rs1 rs2 : Reg) : Statement (.slt rd rs1 rs2) :=
  (mask_encodeR 0b0000000#7 0b010#3 _ _ _ 0b0110011#7).trans rfl
theorem xor (rd rs1 rs2 : Reg) : Statement (.xor rd rs1 rs2) :=
  (mask_encodeR 0b0000000#7 0b100#3 _ _ _ 0b0110011#7).trans rfl
theorem srl (rd rs1 rs2 : Reg) : Statement (.srl rd rs1 rs2) :=
  (mask_encodeR 0b0000000#7 0b101#3 _ _ _ 0b0110011#7).trans rfl
theorem sra (rd rs1 rs2 : Reg) : Statement (.sra rd rs1 rs2) :=
  (mask_encodeR 0b0100000#7 0b101#3 _ _ _ 0b0110011#7).trans rfl
theorem or (rd rs1 rs2 : Reg) : Statement (.or rd rs1 rs2) :=
  (mask_encodeR 0b0000000#7 0b110#3 _ _ _ 0b0110011#7).trans rfl
theorem and (rd rs1 rs2 : Reg) : Statement (.and rd rs1 rs2) :=
  (mask_encodeR 0b0000000#7 0b111#3 _ _ _ 0b0110011#7).trans rfl
theorem mul (rd rs1 rs2 : Reg) : Statement (.mul rd rs1 rs2) :=
  (mask_encodeR 0b0000001#7 0b000#3 _ _ _ 0b0110011#7).trans rfl
theorem div (rd rs1 rs2 : Reg) : Statement (.div rd rs1 rs2) :=
  (mask_encodeR 0b0000001#7 0b100#3 _ _ _ 0b0110011#7).trans rfl
theorem rem (rd rs1 rs2 : Reg) : Statement (.rem rd rs1 rs2) :=
  (mask_encodeR 0b0000001#7 0b110#3 _ _ _ 0b0110011#7).trans rfl
theorem addi (rd rs1 : Reg) (imm : BitVec 12) : Statement (.addi rd rs1 imm) :=
  (mask_encodeI 0b000#3 _ _ 0b0010011#7 _).trans rfl
theorem andi (rd rs1 : Reg) (imm : BitVec 12) : Statement (.andi rd rs1 imm) :=
  (mask_encodeI 0b111#3 _ _ 0b0010011#7 _).trans rfl
theorem ori (rd rs1 : Reg) (imm : BitVec 12) : Statement (.ori rd rs1 imm) :=
  (mask_encodeI 0b110#3 _ _ 0b0010011#7 _).trans rfl
theorem jalr (rd rs1 : Reg) (imm : BitVec 12) : Statement (.jalr rd rs1 imm) :=
  (mask_encodeI 0b000#3 _ _ 0b1100111#7 _).trans rfl
theorem lb (rd rs1 : Reg) (imm : BitVec 12) : Statement (.lb rd rs1 imm) :=
  (mask_encodeI 0b000#3 _ _ 0b0000011#7 _).trans rfl
theorem lh (rd rs1 : Reg) (imm : BitVec 12) : Statement (.lh rd rs1 imm) :=
  (mask_encodeI 0b001#3 _ _ 0b0000011#7 _).trans rfl
theorem lw (rd rs1 : Reg) (imm : BitVec 12) : Statement (.lw rd rs1 imm) :=
  (mask_encodeI 0b010#3 _ _ 0b0000011#7 _).trans rfl
theorem ld (rd rs1 : Reg) (imm : BitVec 12) : Statement (.ld rd rs1 imm) :=
  (mask_encodeI 0b011#3 _ _ 0b0000011#7 _).trans rfl
theorem lui (rd : Reg) (imm : BitVec 20) : Statement (.lui rd imm) :=
  (mask_encodeU _ 0b0110111#7 _).trans rfl
theorem auipc (rd : Reg) (imm : BitVec 20) : Statement (.auipc rd imm) :=
  (mask_encodeU _ 0b0010111#7 _).trans rfl
theorem jal (rd : Reg) (offset : BitVec 21) : Statement (.jal rd offset) :=
  (mask_encodeUJ _ 0b1101111#7 _).trans rfl
theorem beq (rs1 rs2 : Reg) (offset : BitVec 13) : Statement (.beq rs1 rs2 offset) :=
  (mask_encodeSB 0b000#3 _ _ 0b1100011#7 _).trans rfl
theorem bne (rs1 rs2 : Reg) (offset : BitVec 13) : Statement (.bne rs1 rs2 offset) :=
  (mask_encodeSB 0b001#3 _ _ 0b1100011#7 _).trans rfl
theorem blt (rs1 rs2 : Reg) (offset : BitVec 13) : Statement (.blt rs1 rs2 offset) :=
  (mask_encodeSB 0b100#3 _ _ 0b1100011#7 _).trans rfl
theorem bge (rs1 rs2 : Reg) (offset : BitVec 13) : Statement (.bge rs1 rs2 offset) :=
  (mask_encodeSB 0b101#3 _ _ 0b1100011#7 _).trans rfl
theorem sb (rs1 rs2 : Reg) (imm : BitVec 12) : Statement (.sb rs1 rs2 imm) :=
  (mask_encodeS 0b000#3 _ _ 0b0100011#7 _).trans rfl
theorem sh (rs1 rs2 : Reg) (imm : BitVec 12) : Statement (.sh rs1 rs2 imm) :=
  (mask_encodeS 0b001#3 _ _ 0b0100011#7 _).trans rfl
theorem sw (rs1 rs2 : Reg) (imm : BitVec 12) : Statement (.sw rs1 rs2 imm) :=
  (mask_encodeS 0b010#3 _ _ 0b0100011#7 _).trans rfl
theorem sd (rs1 rs2 : Reg) (imm : BitVec 12) : Statement (.sd rs1 rs2 imm) :=
  (mask_encodeS 0b011#3 _ _ 0b0100011#7 _).trans rfl

end Sys2Proof.Laws.RowMatch
end

