-- ==== Sys2Proof/Tests/Slice0.lean ====
section
/-! SUPPORT. Tests of single steps and decodes, expected values from spec/95_test_vectors.md (the vector's name is in the
comment or the section title), and for every statement with hypotheses a witness that meets them. -/

namespace Sys2Proof.Tests

open Sys2Proof.Machine Sys2Proof.Spec

/-! ### Helpers -/

/-- The start state of a vector: reset, with a pc, one instruction word at it, and x1 and x2. -/
def start (pc w x1 x2 : Word) : State :=
  { ((State.reset.setReg 1 x1).setReg 2 x2).goto pc with imem := [(pc.toNat, w)] }

/-- The data memory of V-LOAD. -/
def loadMem : Memory :=
  [(0x1000, 0x80), (0x1001, 0x91), (0x1002, 0xA2), (0x1003, 0xB3), (0x1004, 0x44), (0x1005, 0x55), (0x1006, 0x66),
    (0x1007, 0x77), (0x1008, 0x08)]

/-- What the next state of one step holds in a register, and its pc. -/
def stepReg (s : State) (r : Reg) : Option (Word × Word) :=
  match step s with
  | .next t => some (t.reg r, t.pc)
  | _ => none

/-- The pc of the next state. -/
def stepPc (s : State) : Option Word :=
  match step s with
  | .next t => some t.pc
  | _ => none

/-- The run state, pc and cycle of the next state. -/
def stepRun (s : State) : Option (RunState × Word × Nat) :=
  match step s with
  | .next t => some (t.run, t.pc, t.cycle)
  | _ => none

/-- The bytes at the given addresses in the next state. -/
def stepBytes (s : State) (as : List Word) : Option (List Byte) :=
  match step s with
  | .next t => some (as.map t.mem.byteAt)
  | _ => none

/-- V-ADD and the like: x3 and the pc after one register-register word at 0. -/
def x3After (w x1 x2 : Word) : Option (Word × Word) := stepReg (start 0 w x1 x2) 3

/-! ### WellFormed: an odd offset has no encoding, an even one has -/

theorem test_wf_refuses_odd_jal : (Instr.jal 1 7).wf = false ∧ (Instr.jal 1 8).wf = true := by decide
theorem test_wf_refuses_odd_beq : (Instr.beq 1 2 1).wf = false ∧ (Instr.beq 1 2 (-2)).wf = true := by decide
theorem test_wf_refuses_odd_bne : (Instr.bne 1 2 (-1)).wf = false := by decide
theorem test_wf_refuses_odd_blt : (Instr.blt 1 2 4095).wf = false := by decide
theorem test_wf_refuses_odd_bge : (Instr.bge 1 2 3).wf = false := by decide

/-! ### Decode: every constructor, by a word written out from its format and the opcode map (30_encoding.md R82 to R95;
words of the vectors where they have one) -/

theorem test_decode_add_sub_mul : decode 0x002081B3 = .ok (.add 3 1 2) ∧ decode 0x402081B3 = .ok (.sub 3 1 2) ∧
    decode 0x022081B3 = .ok (.mul 3 1 2) := by decide
theorem test_decode_register :
    decode 0b0000000_00010_00001_001_00011_0110011 = .ok (.sll 3 1 2) ∧
    decode 0b0000000_00010_00001_010_00011_0110011 = .ok (.slt 3 1 2) ∧
    decode 0b0000000_00010_00001_100_00011_0110011 = .ok (.xor 3 1 2) ∧
    decode 0b0000000_00010_00001_101_00011_0110011 = .ok (.srl 3 1 2) ∧
    decode 0b0100000_00010_00001_101_00011_0110011 = .ok (.sra 3 1 2) ∧
    decode 0b0000000_00010_00001_110_00011_0110011 = .ok (.or 3 1 2) ∧
    decode 0b0000000_00010_00001_111_00011_0110011 = .ok (.and 3 1 2) ∧
    decode 0b0000001_00010_00001_100_00011_0110011 = .ok (.div 3 1 2) ∧
    decode 0b0000001_00010_00001_110_00011_0110011 = .ok (.rem 3 1 2) := by decide
theorem test_decode_immediate :
    decode 0x80008193 = .ok (.addi 3 1 (-2048)) ∧ decode 0x7FF08193 = .ok (.addi 3 1 2047) ∧
    decode 0b000011111111_00001_111_00011_0010011 = .ok (.andi 3 1 255) ∧
    decode 0b111111111111_00001_110_00011_0010011 = .ok (.ori 3 1 (-1)) := by decide
theorem test_decode_upper : decode 0x123452B7 = .ok (.lui 5 0x12345) ∧ decode 0xFFFFF297 = .ok (.auipc 5 0xFFFFF) := by
  decide
/-- V-IMM, the UJ rows: each scattered field by itself, and both ends. -/
theorem test_decode_jal : decode 0x002000EF = .ok (.jal 1 2) ∧ decode 0x001000EF = .ok (.jal 1 2048) ∧
    decode 0x000012EF = .ok (.jal 5 4096) ∧ decode 0x7FFFF0EF = .ok (.jal 1 1048574) ∧
    decode 0x800000EF = .ok (.jal 1 (-1048576)) := by decide
theorem test_decode_jalr : decode 0xFFC08067 = .ok (.jalr 0 1 (-4)) := by decide
/-- V-IMM, the SB rows. -/
theorem test_decode_beq : decode 0x00000163 = .ok (.beq 0 0 2) ∧ decode 0x00000863 = .ok (.beq 0 0 16) ∧
    decode 0x000000E3 = .ok (.beq 0 0 2048) ∧ decode 0x7E208FE3 = .ok (.beq 1 2 4094) ∧
    decode 0x80208063 = .ok (.beq 1 2 (-4096)) := by decide
theorem test_decode_branches : decode 0x00209463 = .ok (.bne 1 2 8) ∧ decode 0x0020C463 = .ok (.blt 1 2 8) ∧
    decode 0x0020D463 = .ok (.bge 1 2 8) := by decide
theorem test_decode_loads : decode 0xFFF08183 = .ok (.lb 3 1 (-1)) ∧ decode 0x00109183 = .ok (.lh 3 1 1) ∧
    decode 0x0030A183 = .ok (.lw 3 1 3) ∧ decode 0x0040B183 = .ok (.ld 3 1 4) := by decide
/-- V-STORE and the S rows of V-IMM: rs1 is the base, rs2 the data. -/
theorem test_decode_stores : decode 0xFE208E23 = .ok (.sb 1 2 (-4)) ∧ decode 0x002090A3 = .ok (.sh 1 2 1) ∧
    decode 0x7E20AFA3 = .ok (.sw 1 2 2047) ∧ decode 0xFE20BE23 = .ok (.sd 1 2 (-4)) := by decide
/-- V-DEC, unsupported opcodes (R98). -/
theorem test_decode_unsupported_opcode : decode 0x00000073 = .error (.unsupportedOpcode 0b1110011) ∧
    decode 0x0000000F = .error (.unsupportedOpcode 0b0001111) ∧ decode 0x00000001 = .error (.unsupportedOpcode 1) ∧
    decode 0xFFFFFFFF = .error (.unsupportedOpcode 0b1111111) := by decide
/-- V-DEC, unsupported functions (R99, D10): SLLI, SLTU, funct7 0100000 with funct3 001, MULH, funct7 0000010, JALR with
funct3 001, BLTU, LBU, a store with funct3 100. -/
theorem test_decode_unsupported_function :
    [0x00001013, 0x00003033, 0x40001033, 0x02001033, 0x04000033, 0x00001067, 0x00006063, 0x00004003,
      0x00004023].all (fun w => match decode w with
        | .error (.unsupportedFunction ..) => true
        | _ => false) = true := by decide
/-- A7: the words of the examples are what the encoder gives. -/
theorem test_encode : encode (.add 3 1 2) = 0x002081B3 ∧ encode (.sw 1 2 (-4)) = 0xFE20AE23 ∧
    encode (.blt 1 5 (-4)) = 0xFE50CEE3 ∧ encode (.jal 0 (-8)) = 0xFF9FF06F := by decide
/-- R97, R104: rows of the one table, and the outputs of the decoder, present and absent by format. -/
theorem test_table_rows : (tableRow .sra).funct7 = some 0b0100000 ∧ (tableRow .ld).funct3 = some 0b011 ∧
    (tableRow .auipc).funct3 = none ∧ (tableRow .sd).format = .S ∧ (tableRow .jalr).tag = .jalr := by decide
theorem test_decoded_fields : fieldsOf (.sub 3 1 2) = ⟨some 3, some 1, some 2, some 0, some 0b0100000, none⟩ ∧
    fieldsOf (.sw 1 2 (-4)) = ⟨none, some 1, some 2, some 2, none, some 0xFFFFFFFC⟩ ∧
    fieldsOf (.lui 5 0x12345) = ⟨some 5, none, none, none, none, some 0x12345000⟩ := by decide
theorem test_decodeTableWord : decodeTableWord 32 0x402081B3 = some (.sub 3 1 2) ∧ decodeTableWord 32 0 = none := by
  decide

/-! ### Register-register (V-ADD, V-SUB, V-LOGIC, V-SHIFT, V-SLT) -/

theorem test_add_carry_lost : x3After 0x002081B3 0xFFFFFFFF 1 = some (0, 4) := by decide
theorem test_add_same_register : stepReg (start 0 0x001080B3 5 0) 1 = some (0xA, 4) := by decide
theorem test_sub_borrow : x3After 0x402081B3 3 5 = some (0xFFFFFFFE, 4) := by decide
theorem test_xor : x3After 0x0020C1B3 0xFF00FF00 0x0FF00FF0 = some (0xF0F0F0F0, 4) := by decide
theorem test_or : x3After 0x0020E1B3 0xFF00FF00 0x0FF00FF0 = some (0xFFF0FFF0, 4) := by decide
theorem test_and : x3After 0x0020F1B3 0xFF00FF00 0x0FF00FF0 = some (0x0F000F00, 4) := by decide
theorem test_sll_amount_masked : x3After 0x002091B3 1 0xFFFFFFE1 = some (2, 4) := by decide
theorem test_sll_amount_32_is_0 : x3After 0x002091B3 1 32 = some (1, 4) := by decide
theorem test_srl_zero_fill : x3After 0x0020D1B3 0x80000000 31 = some (1, 4) := by decide
theorem test_sra_sign_fill : x3After 0x4020D1B3 0x80000000 1 = some (0xC0000000, 4) := by decide
theorem test_sra_amount_32_is_0 : x3After 0x4020D1B3 0x80000000 32 = some (0x80000000, 4) := by decide
theorem test_slt_signed : x3After 0x0020A1B3 0x80000000 0x7FFFFFFF = some (1, 4) := by decide
theorem test_slt_equal : x3After 0x0020A1B3 5 5 = some (0, 4) := by decide

/-! ### Multiply and divide (V-MUL, V-DIV, V-REM) -/

theorem test_mul_low_half : x3After 0x022081B3 0x80000000 0xFFFFFFFF = some (0x80000000, 4) := by decide
theorem test_mul_negative : x3After 0x022081B3 0xFFFFFFFD 5 = some (0xFFFFFFF1, 4) := by decide
theorem test_div_toward_zero : x3After 0x0220C1B3 0xFFFFFFF9 2 = some (0xFFFFFFFD, 4) := by decide
theorem test_div_corners : x3After 0x0220C1B3 7 0 = some (0, 4) ∧
    x3After 0x0220C1B3 0x80000000 0xFFFFFFFF = some (0x80000000, 4) := by decide
theorem test_rem_sign_of_dividend : x3After 0x0220E1B3 0xFFFFFFF9 2 = some (0xFFFFFFFF, 4) ∧
    x3After 0x0220E1B3 7 0xFFFFFFFE = some (1, 4) := by decide
theorem test_rem_corners : x3After 0x0220E1B3 7 0 = some (0, 4) ∧
    x3After 0x0220E1B3 0x80000000 0xFFFFFFFF = some (0, 4) := by decide

/-! ### Immediates (V-IMMOPS) and x0 (V-X0) -/

theorem test_addi_negative : x3After 0xFFF08193 5 0 = some (4, 4) := by decide
theorem test_andi_sign_extends : x3After 0xF000F193 0x12345678 0 = some (0x12345600, 4) := by decide
theorem test_ori_sign_extends : x3After 0x8000E193 0 0 = some (0xFFFFF800, 4) := by decide
theorem test_lui : stepReg (start 0 0x123452B7 0 0) 5 = some (0x12345000, 4) := by decide
theorem test_auipc_own_pc : stepReg (start 0x10 0x00001297 0 0) 5 = some (0x1010, 0x14) := by decide
theorem test_auipc_wraps : stepReg (start 0x1000 0xFFFFF297 0 0) 5 = some (0, 0x1004) := by decide
theorem test_x0_discards : stepReg (start 0 0x00208033 5 6) 0 = some (0, 4) ∧
    stepReg (start 0 0x12345037 0 0) 0 = some (0, 4) := by decide

/-! ### Jumps and branches (V-JAL, V-JALR, V-BR) -/

theorem test_jal_backward : stepReg (start 0x100 0xFF9FF06F 0 0) 0 = some (0, 0xF8) := by decide
theorem test_jal_links : stepReg (start 0x40 0x000012EF 0 0) 5 = some (0x44, 0x1040) := by decide
theorem test_jalr_clears_bit_0_only : stepReg ((start 0x20 0x003280E7 0 0).setReg 5 0x100) 1 = some (0x24, 0x102) := by
  decide
theorem test_jalr_reads_before_write : stepReg ((start 0x10 0x008282E7 0 0).setReg 5 0x40) 5 = some (0x14, 0x48) := by
  decide
theorem test_beq : stepPc (start 0x100 0x00208463 5 5) = some 0x108 ∧
    stepPc (start 0x100 0x00208463 5 6) = some 0x104 := by decide
theorem test_beq_backward_wraps : stepPc (start 0 0xFE000EE3 0 0) = some 0xFFFFFFFC := by decide
theorem test_bne : stepPc (start 0x100 0x00209463 5 5) = some 0x104 ∧
    stepPc (start 0x100 0x00209463 5 6) = some 0x108 := by decide
theorem test_blt_signed : stepPc (start 0x100 0x0020C463 0xFFFFFFFF 1) = some 0x108 ∧
    stepPc (start 0x100 0x0020C463 1 0xFFFFFFFF) = some 0x104 := by decide
theorem test_bge_signed : stepPc (start 0x100 0x0020D463 0x80000000 0x7FFFFFFF) = some 0x104 ∧
    stepPc (start 0x100 0x0020D463 5 5) = some 0x108 := by decide

/-! ### Loads and stores (V-LOAD, V-STORE) -/

theorem test_lb_sign_extends :
    stepReg { start 0 0x00108183 0x1000 0 with mem := loadMem } 3 = some (0xFFFFFF91, 4) := by decide
theorem test_lh_misaligned :
    stepReg { start 0 0x00109183 0x1000 0 with mem := loadMem } 3 = some (0xFFFFA291, 4) := by decide
theorem test_lw_little_endian :
    stepReg { start 0 0x0030A183 0x1000 0 with mem := loadMem } 3 = some (0x665544B3, 4) := by decide
theorem test_lw_wraps :
    stepReg { start 0 0xFFE02183 0 0 with mem := [(0, 0x33), (1, 0x44), (0xFFFFFFFE, 0x11), (0xFFFFFFFF, 0x22)] } 3
      = some (0x44332211, 4) := by decide
theorem test_ld_low_word :
    stepReg { start 0 0x0010B183 0x1000 0 with mem := loadMem } 3 = some (0x44B3A291, 4) := by decide
theorem test_sb : stepBytes { start 0 0xFE208E23 0x2010 0xA1B2C3D4 with mem := [(0x200B, 0xEE), (0x200D, 0xEE)] }
    [0x200B, 0x200C, 0x200D] = some [0xEE, 0xD4, 0xEE] := by decide
theorem test_sh_misaligned : stepBytes { start 0 0x002090A3 0x2000 0xA1B2C3D4 with mem := [(0x2003, 0xEE)] }
    [0x2001, 0x2002, 0x2003] = some [0xD4, 0xC3, 0xEE] := by decide
theorem test_sw_wraps : stepBytes (start 0 0xFE202F23 0 0xA1B2C3D4) [0xFFFFFFFE, 0xFFFFFFFF, 0, 1]
    = some [0xD4, 0xC3, 0xB2, 0xA1] := by decide
/-- The upper four bytes are OPEN (D8): only the determined ones are tested, and the neighbours. -/
theorem test_sd_low_bytes : ∃ t, step (start 0 0x0020B423 0x2000 0xA1B2C3D4) = .next t ∧
    t.mem.byteAt 0x2007 = 0 ∧ t.mem.byteAt 0x2008 = 0xD4 ∧ t.mem.byteAt 0x2009 = 0xC3 ∧ t.mem.byteAt 0x200A = 0xB2 ∧
    t.mem.byteAt 0x200B = 0xA1 ∧ t.mem.byteAt 0x2010 = 0 ∧ t.pc = 4 := by
  have key (b : Word) : (Memory.store [] 0x2008 (storeDataDouble 0xA1B2C3D4) 8).byteAt b =
      if (b - 0x2008).toNat < 8 then
        if (b - 0x2008).toNat < 4 then (0xA1B2C3D4 : Word).extractLsb' (8 * (b - 0x2008).toNat) 8
        else (Config.sdUpper 0xA1B2C3D4).extractLsb' (8 * ((b - 0x2008).toNat - 4)) 8
      else 0 := by
    rw [byteAt_store _ _ _ _ _ (by decide)]
    split
    next h => exact storeDataDouble_byte _ _ h
    · rfl
  refine ⟨_, rfl, ?_, ?_, ?_, ?_, ?_, ?_, rfl⟩ <;> exact (key _).trans (by decide)
theorem test_store_leaves_imem : (match step (start 0 0xFE202F23 0 0xA1B2C3D4) with
    | .next t => t.imem.fetch 0
    | _ => 0) = 0xFE202F23 := by decide

/-! ### Halts (V-HALT). The rows at cycle 5000 (V-HALT-4, V-HALT-6) lie inside the OPEN slack of D11. -/

theorem test_halt_1_absent : stepRun State.reset = some (.halted .normal, 0, 1) := by decide
theorem test_halt_2_explicit_zero : stepRun (start 0 0 0 0) = some (.halted .normal, 0, 1) := by decide
theorem test_halt_3_decode_error : stepRun (start 0 0x00000073 0 0) = some (.halted .decodeError, 0, 1) := by decide
theorem test_halt_3_report : (match step (start 0 0x00000073 0 0) with
    | .next t => t.finalReport.map fun f => (f.reason, f.offending)
    | _ => none) = some (.decodeError, some (0, 0x00000073)) := by decide
theorem test_halt_5_last_cycle : stepRun { start 0x10 0x00108093 7 0 with cycle := 4999 } = some (.running, 0x14, 5000) := by
  decide
theorem test_halt_7_final : stepRun { State.reset with run := .halted .normal } = none := by decide
theorem test_halt_8_misaligned_pc : stepRun { start 4 0x00108093 0 0 with pc := 6 } = some (.halted .normal, 6, 1) := by
  decide

/-! ### Reset and the loader (V-RESET, V-LOADER, V-E2E-1) -/

theorem test_reset : State.reset.reg 1 = 0 ∧ State.reset.reg 2 = 0x7FFFFFDC ∧ State.reset.reg 31 = 0 ∧
    State.reset.pc = 0 ∧ State.reset.cycle = 0 ∧ State.reset.run = .running := by decide

def loaderLines : List Line :=
  [⟨0x0, 0x100000B7⟩, ⟨0x4, 0x0000A403⟩, ⟨0x8, 0xDEADBEEF⟩, ⟨Config.dataBaseDefault, 0x0A⟩, ⟨0x10000001, 0x00⟩,
    ⟨0x10000002, 0x00⟩, ⟨0x10000003, 0x00⟩]

theorem test_parse_line : parseLine "0x4 0x0000a403 , lw x8, 0(x1) # (annotation ignored)".toList = some ⟨0x4, 0x0000A403⟩ ∧
    parseLine "0x10000000 0x0a".toList = some ⟨0x10000000, 0x0A⟩ ∧ parseLine "loop: addi".toList = none := by decide
theorem test_loader : (State.boot loaderLines).map (fun s => (s.imem, s.mem)) =
    some ([(0x0, 0x100000B7), (0x4, 0x0000A403)],
      [(0, 0xB7), (3, 0x10), (4, 0x03), (5, 0xA4), (0x10000000, 0x0A)]) := by decide
/-- D19 (a): of two lines at one address the later wins. -/
theorem test_loader_duplicate :
    (State.boot [⟨0x4, 0x0000A403⟩, ⟨0x4, 0x00000013⟩]).map (fun s => (s.imem.fetch 4, s.mem.load 4 4)) =
      some (0x00000013, 0x00000013) := by decide
theorem test_bootText : State.bootText ["0x0 0x00500093 , addi x1, x0, 5", "0x4 0xdeadbeef , ends"] =
    State.boot [⟨0, 0x00500093⟩, ⟨4, 0xDEADBEEF⟩] := by decide
theorem test_withFetchWord : stepReg (State.reset.withFetchWord 32 0x00500093) 1 = some (5, 4) := by decide

/-! ### Witnesses: for each statement with hypotheses, a concrete case that meets them -/

/-- The cycle counter of a fresh run is below the ceiling whatever the slack is. -/
theorem below_of_cycle {s : State} (h : s.cycle < 5000) : BelowCeiling s := by
  unfold BelowCeiling Config.cycleCeiling; omega

theorem witness_DecodeInvertsEncode : (Instr.bge 31 31 (-4096)).wf = true ∧
    ((-2 ^ 11 : Int) ≤ -2048 ∧ (2047 : Int) ≤ 2 ^ 11 - 1) ∧
    ((-2 ^ 12 : Int) ≤ -4096 ∧ (4094 : Int) ≤ 2 ^ 12 - 1 ∧ (-4096 : Int) % 2 = 0 ∧ (4094 : Int) % 2 = 0) ∧
    ((-2 ^ 20 : Int) ≤ -1048576 ∧ (1048574 : Int) ≤ 2 ^ 20 - 1 ∧ (-1048576 : Int) % 2 = 0 ∧ (1048574 : Int) % 2 = 0) := by
  decide
theorem witness_EncodeInvertsDecode : decode 0xFE50CEE3 = .ok (.blt 1 5 (-4)) := by decide
/-- Of OperandsAreTheBitsTheFormatNames and DecodedFieldsFollowTheFormat: a word of each format. -/
theorem witness_formats : decode 0x402081B3 = .ok (.sub 3 1 2) ∧ decode 0x80008193 = .ok (.addi 3 1 (-2048)) ∧
    decode 0x8020A023 = .ok (.sw 1 2 (-2048)) ∧ decode 0x80208063 = .ok (.beq 1 2 (-4096)) ∧
    decode 0xFFFFF2B7 = .ok (.lui 5 0xFFFFF) ∧ decode 0x800000EF = .ok (.jal 1 (-1048576)) ∧
    (Instr.jal 31 1048574).wf = true := by decide
theorem witness_DecodeMatchesOpcodeMap : (Instr.sub 0 0 0).row ∈ opcodeTable ∧
    (0x402081B3 : Word) &&& (Instr.sub 0 0 0).row.mask = (Instr.sub 0 0 0).row.pattern := by decide
theorem witness_UnsupportedOpcodeHalts : ∃ s : State, s.run = .running ∧ BelowCeiling s ∧ s.imem.fetch s.pc ≠ 0 ∧
    (s.imem.fetch s.pc).extractLsb' 0 7 ∉ supportedOpcodes :=
  ⟨start 0 0x00000073 0 0, by decide, below_of_cycle (by decide), by decide, by decide⟩
theorem witness_UnsupportedFunctionHalts : ∃ s : State, s.run = .running ∧ BelowCeiling s ∧
    (s.imem.fetch s.pc).extractLsb' 0 7 ∈ supportedOpcodes ∧
    ∀ row ∈ opcodeTable, s.imem.fetch s.pc &&& row.mask ≠ row.pattern :=
  ⟨start 0 0x00004013 0 0, by decide, below_of_cycle (by decide), by decide, by decide⟩
/-- Of BootStateIsResetPlusImage and BootStatesHaveInv. -/
theorem witness_boot : ∃ s, State.boot loaderLines = some s :=
  Option.isSome_iff_exists.mp (by decide)
/-- Both sides of ListingBootsUnlessDataIsNoByte, at 255 and 256. -/
theorem witness_ListingBootsUnlessDataIsNoByte :
    (∀ x ∈ dataLines [⟨0, 0xDEADBEEF⟩, ⟨0, 0xFF⟩], x.num.toNat < 256) ∧
    ¬ ∀ x ∈ dataLines [⟨0, 0xDEADBEEF⟩, ⟨0, 0x100⟩], x.num.toNat < 256 := by decide
/-- The data right after the text, and the data up to the last address. -/
theorem witness_AssembledListingLoads : (∀ w ∈ [(0x00500093 : Word)], w ≠ Config.sentinel) ∧
    4 * [(0x00500093 : Word)].length ≤ (4 : Word).toNat ∧ (4 : Word).toNat + [(0x0A : Byte)].length ≤ 2 ^ 32 ∧
    4 * [(0x00500093 : Word)].length ≤ (0xFFFFFFFF : Word).toNat ∧
    (0xFFFFFFFF : Word).toNat + [(0x0A : Byte)].length ≤ 2 ^ 32 := by simp [Config.sentinel]
theorem witness_AnnotationIsIgnored : parseLine "0x8 0xdeadbeef".toList = some ⟨8, 0xDEADBEEF⟩ := by decide
theorem witness_RegisterWrites : (31 : Reg) ≠ 0 ∧ (∃ t, exec (.addi 31 0 5) State.reset = .next t) ∧
    ∃ t, step (start 0 0x00500093 0 0) = .next t ∧ t.regs ≠ (start 0 0x00500093 0 0).regs :=
  ⟨by decide, ⟨_, rfl⟩, _, rfl, by decide⟩

/-- A byte no entry covers, at the last address. -/
theorem witness_MemReadIsLittleEndian : 8 ∈ [1, 2, 4, 8] ∧ ∀ c ∈ loadMem, c.1 ≠ (0xFFFFFFFF : Word).toNat := by decide
theorem witness_MemWriteStoresExactly : (8 ∈ [1, 2, 4, 8] ∧ 8 * 8 ≤ 64) ∧ (1 ∈ [1, 2, 4, 8] ∧ 8 * 1 ≤ 8) ∧
    (∃ b : Word, ∀ i < 8, b ≠ 0xFFFFFFFC + BitVec.ofNat 32 i) ∧ ∃ t, exec (.sd 0 2 (-4)) State.reset = .next t :=
  ⟨by decide, by decide, ⟨4, by decide⟩, _, rfl⟩
theorem witness_CanonicalFormIsExtensional : Memory.wf loadMem ∧ InstrMap.wf [(0, 0x00500093), (0xFFFFFFFF, 0)] := by
  decide
theorem witness_AddWritesSum : (0x01FF8FB3 : Word) &&& 0xFE00707F = 0x00000033 := by decide
theorem witness_SubWritesDifference : (0x41FF8FB3 : Word) &&& 0xFE00707F = 0x40000033 := by decide
/-- Of SltComparesSigned and SignedBranches: less, at the ends of the range, and equal, where the two clauses meet. -/
theorem witness_signed_compare :
    ((start 0 0 0x80000000 0x7FFFFFFF).reg 1).toInt < ((start 0 0 0x80000000 0x7FFFFFFF).reg 2).toInt ∧
    ((start 0 0 5 5).reg 2).toInt ≤ ((start 0 0 5 5).reg 1).toInt ∧
    ¬ ((start 0 0 5 5).reg 1).toInt < ((start 0 0 5 5).reg 2).toInt := by decide
/-- Of ImmediateFormsSignExtend: the bit index at both ends. -/
theorem witness_ImmediateFormsSignExtend : 0 < 32 ∧ 31 < 32 := by decide
/-- Of DivRoundsTowardZero, RemHasSignOfDividend and DivRemIdentity: each clause, and values next to the overflow pair. -/
theorem witness_division : ((start 0 0 7 0).reg 2).toInt = 0 ∧
    (((start 0 0 0x80000000 0xFFFFFFFF).reg 1).toInt = -2 ^ 31 ∧ ((start 0 0 0x80000000 0xFFFFFFFF).reg 2).toInt = -1) ∧
    (((start 0 0 0x80000001 0xFFFFFFFF).reg 2).toInt ≠ 0 ∧
      ¬(((start 0 0 0x80000001 0xFFFFFFFF).reg 1).toInt = -2 ^ 31 ∧
        ((start 0 0 0x80000001 0xFFFFFFFF).reg 2).toInt = -1)) ∧
    ((1 : Reg) ≠ 0 ∧ (start 0 0 7 2).reg 2 ≠ 0) ∧ (31 : Reg) ≠ 0 ∧ (start 0 0 7 0).reg 2 = 0 := by decide
theorem witness_EqualityBranches : (start 0 0 5 5).reg 1 = (start 0 0 5 5).reg 2 ∧
    (start 0 0 5 0x80000005).reg 1 ≠ (start 0 0 5 0x80000005).reg 2 := by decide
theorem witness_NextPcRule : (1 : Reg) ≠ 0 ∧ (31 : Reg) ≠ 0 := by decide
/-- Of StoresWriteLowBytes and SdStoresEightBytes: an address just before and just after an access that wraps. -/
theorem witness_stores : 8 ≤ ((0xFFFFFFFB : Word) - 0xFFFFFFFC).toNat ∧ 8 ≤ ((4 : Word) - 0xFFFFFFFC).toNat ∧
    ¬ 8 ≤ ((3 : Word) - 0xFFFFFFFC).toNat := by decide
theorem witness_StoreWordThenLoadWord : ∃ t, exec (.sw 2 2 0) State.reset = .next t ∧ (3 : Reg) ≠ 0 ∧
    t.effectiveAddress 2 0 = State.reset.effectiveAddress 2 0 :=
  ⟨_, rfl, by decide, by decide⟩
theorem witness_ZeroDestinationDiscardsOnlyTheWrite :
    (∃ t, exec (.jal 0 (-8)) State.reset = .next t) ∧ destination (.jal 0 (-8)) = some 0 ∧
    destination (.jalr 0 1 4) ≠ none ∧ withDestination 31 (.jalr 0 1 4) = .jalr 31 1 4 :=
  ⟨⟨_, rfl⟩, rfl, by decide, rfl⟩
/-- A load with another memory that agrees on its access only; an instruction without access; a store. -/
theorem witness_OneAccessPerInstruction :
    ((∃ t, exec (.lh 3 0 1) State.reset = .next t) ∧ storeAccess State.reset (.lh 3 0 1) = none ∧
      ∀ ea n, loadAccess State.reset (.lh 3 0 1) = some (ea, n) →
        ∀ k < n, Memory.byteAt [(0, 7), (3, 7)] (ea + BitVec.ofNat 32 k)
          = State.reset.mem.byteAt (ea + BitVec.ofNat 32 k)) ∧
    (loadAccess State.reset (.add 3 1 2) = none ∧ storeAccess State.reset (.add 3 1 2) = none) ∧
    (∃ t, exec (.sd 2 1 0) State.reset = .next t) ∧ storeAccess State.reset (.sd 2 1 0) = some (0x7FFFFFDC, 8) :=
  ⟨⟨⟨_, rfl⟩, rfl, fun ea n h => by cases h; decide⟩, ⟨rfl, rfl⟩, ⟨_, rfl⟩, by decide⟩
theorem witness_CycleRunAndImemAreInvisible : ∃ t, exec (.jalr 5 5 8) State.reset = .next t := ⟨_, rfl⟩
/-- A run of two steps: an instruction, then the normal halt. -/
theorem witness_InstructionMapNeverChanges : ∃ t u, step (start 0 0x00500093 0 0) = .next t ∧ step t = .next u ∧
    Reaches (start 0 0x00500093 0 0) u ∧ u.run = .halted .normal :=
  ⟨_, _, rfl, rfl, .tail (.tail (.refl _) rfl) rfl, rfl⟩
theorem witness_StepRunsTheDecodedInstruction : ∃ s : State, s.run = .running ∧ BelowCeiling s ∧ s.imem.fetch s.pc ≠ 0 ∧
    decode (s.imem.fetch s.pc) = .ok (.addi 1 0 5) :=
  ⟨start 0 0x00500093 0 0, by decide, below_of_cycle (by decide), by decide, by decide⟩
theorem witness_ZeroWordHaltsNormally : (State.reset.run = .running ∧ BelowCeiling State.reset ∧
    State.reset.imem.fetch State.reset.pc = 0) ∧ InstrMap.entry [(4, 0x00500093)] 6 = none :=
  ⟨⟨rfl, below_of_cycle (by decide), rfl⟩, rfl⟩
/-- The first cycle counts that are past the ceiling, and the last that is not, whatever the slack is. -/
theorem witness_CycleLimitHalts : ∃ s t : State, s.run = .running ∧ ¬ BelowCeiling s ∧ 5002 ≤ s.cycle ∧
    step s = .next t ∧ t.run = .halted .cycleLimit ∧ { s with cycle := 4999 }.cycle < 5000 := by
  have hb : ¬ BelowCeiling { State.reset with cycle := 5002 } := by
    have := Config.ceilingSlack.isLt
    unfold BelowCeiling Config.cycleCeiling; simp only; omega
  refine ⟨{ State.reset with cycle := 5002 }, haltedState { State.reset with cycle := 5002 } .cycleLimit, rfl, hb, Nat.le_refl _, ?_, rfl, by decide⟩
  refine (step_of_running rfl).trans (runCycle_ceiling ?_)
  rw [ceilingExceeded_iff]
  unfold BelowCeiling at hb
  omega
theorem witness_RunStateLifecycle : State.reset.run = .running ∧
    { State.reset with run := .halted .cycleLimit }.run = .halted .cycleLimit ∧
    (∃ t, exec (.addi 1 0 5) State.reset = .next t) ∧ ∃ f, { State.reset with run := .halted .normal }.finalReport = some f :=
  ⟨rfl, rfl, ⟨_, rfl⟩, _, rfl⟩
/-- Of the first clause a word that does not decode; of the second a state that halted normally, reached by a step, and
one halted by the ceiling, whose reports hold no word. -/
theorem witness_DecodeErrorReport : (∃ s : State, s.run = .running ∧ BelowCeiling s ∧ s.imem.fetch s.pc ≠ 0 ∧
      ∃ e, decode (s.imem.fetch s.pc) = .error e) ∧
    (∃ t, step State.reset = .next t ∧ t.run = .halted .normal ∧ t.finalReport.map (·.offending) = some none) ∧
    ∃ t : State, t.run = .halted .cycleLimit ∧ t.finalReport.map (·.offending) = some none :=
  ⟨⟨start 0 0x00000073 0 0, by decide, below_of_cycle (by decide), by decide, _, rfl⟩, ⟨_, rfl, rfl, rfl⟩,
    haltedState (start 0 0x00000073 0 0) .cycleLimit, rfl, rfl⟩
theorem witness_ErrorsComeFromCeilingOrDecode : ∃ t, step (start 0 0x00004013 0 0) = .next t ∧ ¬ t.noError :=
  ⟨_, rfl, by simp [State.noError, State.raiseHalt]⟩
theorem witness_CycleCountsSteps : ∃ t, runFor 2 (start 0 0x00500093 0 0) = .next t := ⟨_, rfl⟩
/-- Of EveryRunEnds, and of SafeRunsEndNormally: the run from reset meets no error. -/
theorem witness_SafeRunsEndNormally : State.reset.run = .running ∧ State.reset.safe := by
  refine ⟨rfl, fun t h => ?_⟩
  have key : t = State.reset ∨ t = haltedState State.reset .normal := by
    induction h with
    | refl => exact .inl rfl
    | tail _ hs ih =>
      rcases ih with rfl | rfl
      · exact .inr (Host.Outcome.next.inj hs).symm
      · cases hs
  rcases key with rfl | rfl <;> exact ⟨by decide, by decide⟩
theorem witness_StepKeepsInv : State.reset.Inv ∧ ∃ t, step State.reset = .next t :=
  ⟨⟨by decide, by decide, by decide, by decide, Nat.zero_le _, fun _ => Nat.zero_le _⟩, _, rfl⟩

end Sys2Proof.Tests
end

section
/-! What writes a register (10_state.md R22): the effect of an instruction by the destination it names, the registers it
leaves alone, and the cycles that can change the register file. -/

namespace Sys2Proof.Proofs

open Sys2Proof.Machine Sys2Proof.Spec

/-- An instruction that names a destination ends in a write-back to that register. -/
theorem exec_of_destination {i : Instr} {rd : Reg} (hd : destination i = some rd) (s : State) :
    ∃ v a, exec i s = .next (s.writeBack rd v a) := by
  cases i
  case beq | bne | blt | bge | sb | sh | sw | sd => cases hd
  all_goals
    injection hd with hd
    subst hd
    exact ⟨_, _, rfl⟩

/-- An instruction that names no destination moves the pc or stores, and so leaves every register cell alone. -/
theorem exec_regs_of_no_destination {i : Instr} {s t : State} (hd : destination i = none)
    (h : exec i s = .next t) : t.regs = s.regs := by
  cases i
  case beq | bne | blt | bge | sb | sh | sw | sd =>
    injection h with h
    subst h
    rfl
  all_goals cases hd

/-- An instruction leaves every register but its destination as it was. -/
theorem exec_reg_of_ne_destination {i : Instr} {s t : State} {r : Reg} (h : exec i s = .next t)
    (hr : destination i ≠ some r) : t.reg r = s.reg r := by
  cases hd : destination i with
  | none => exact reg_congr (exec_regs_of_no_destination hd h) r
  | some rd =>
    obtain ⟨v, a, hex⟩ := exec_of_destination hd s
    obtain rfl : s.writeBack rd v a = t := Host.Outcome.next.inj (hex.symm.trans h)
    have hne : r ≠ rd := fun e => hr (by rw [hd, e])
    rw [writeBack_reg, if_neg fun hw => hne hw.1]

/-- No halt touches the register file: a step that changes it executes the decoded instruction. -/
theorem step_executes_of_regs_ne {s t : State} (h : step s = .next t) (hne : t.regs ≠ s.regs) :
    ∃ i, decode s.fetchWord = .ok i ∧ exec i s.tick = .next t := by
  obtain ⟨-, hcycle⟩ := step_next h
  obtain ⟨-, rfl⟩ | ⟨-, -, rfl⟩ | ⟨-, -, -, rfl⟩ | ⟨-, -, i, hdec, hexec⟩ := runCycle_cases hcycle
  case inr.inr.inr => exact ⟨i, hdec, hexec⟩
  all_goals exact absurd rfl hne

/-- Settles O12: the first two clauses are the rules of `setReg`, the third reads off the effect of an instruction by
its destination, and the fourth holds because neither a halt nor an instruction without a destination changes a cell. -/
theorem registerWrites : Obligations.RegisterWrites := by
  refine ⟨fun s v => if_pos rfl, fun s r q v hr => ?_, fun i s t h => ?_, fun s t h hne => ?_⟩
  · simp only [reg_setReg, hr, ne_eq, not_false_eq_true, and_true]
  · obtain ⟨-, -, -, hcell⟩ := exec_untouched h
    exact ⟨reg_zero t, hcell, fun r hr => exec_reg_of_ne_destination h hr⟩
  · obtain ⟨i, hdec, hexec⟩ := step_executes_of_regs_ne h hne
    have hd : destination i ≠ none := fun hnone => hne (exec_regs_of_no_destination (s := s.tick) hnone hexec)
    obtain ⟨rd, hrd⟩ := Option.ne_none_iff_exists'.mp hd
    exact ⟨i, rd, hdec, hrd⟩

end Sys2Proof.Proofs
end

section
/-! Data memory (20_memory.md R53, R54): the number that `MemRead` gives, and what a load reads back after `MemWrite`. -/

namespace Sys2Proof.Proofs

open Sys2Proof.Machine Sys2Proof.Spec

/-- A key that no entry of the table has is not listed. -/
theorem lookup_eq_none {α : Type} {m : List (Nat × α)} {k : Nat} (h : ∀ c ∈ m, c.1 ≠ k) :
    Table.lookup m k = none := by
  induction m with
  | nil => rfl
  | cons c m ih =>
    obtain ⟨hc, hm⟩ := List.forall_mem_cons.mp h
    exact (if_neg hc.symm).trans (ih hm)

/-- An address with no entry in data memory reads as zero (R53). -/
theorem byteAt_of_unlisted {m : Memory} {a : Word} (h : ∀ c ∈ m, c.1 ≠ a.toNat) : m.byteAt a = 0x00 := by
  rw [Memory.byteAt, lookup_eq_none h]
  rfl

/-- `MemRead` of one byte more puts that byte above the number of the lower ones. -/
theorem toNat_load_succ (m : Memory) (a : Word) (n : Nat) :
    (m.load a (n + 1)).toNat = (m.load a n).toNat + (m.byteAt (a + BitVec.ofNat 32 n)).toNat * 256 ^ n := by
  have hpow : 256 ^ n = 2 ^ (8 * n) := (Nat.pow_mul 2 8 n).symm
  rw [Memory.load, BitVec.toNat_cast, BitVec.toNat_append, ← Nat.shiftLeft_add_eq_or_of_lt (m.load a n).isLt,
    Nat.shiftLeft_eq, hpow, Nat.add_comm]

/-- `MemRead(a, n)` as a number, for every n (R51, R53). -/
theorem toNat_load (m : Memory) (a : Word) (n : Nat) :
    (m.load a n).toNat =
      ((List.range n).map fun i => (m.byteAt (a + BitVec.ofNat 32 i)).toNat * 256 ^ i).sum := by
  induction n with
  | zero => rfl
  | succ n ih => simp [toNat_load_succ, ih, List.range_succ]

/-- Settles O13, by induction on the number of bytes read; an unlisted address by induction on the list of cells. -/
theorem memReadIsLittleEndian : Obligations.MemReadIsLittleEndian :=
  fun m a => ⟨fun n _ => toNat_load m a n, byteAt_of_unlisted⟩

/-- Byte i of a write of n bytes is read back at its own address: offsets below 2^32 do not meet again. -/
theorem byteAt_store_inside {w n i : Nat} (m : Memory) (a : Word) (v : BitVec w) (hn : n ≤ 2 ^ 32) (hi : i < n) :
    (m.store a v n).byteAt (a + BitVec.ofNat 32 i) = v.extractLsb' (8 * i) 8 := by
  have hoff : (a + BitVec.ofNat 32 i - a).toNat = i := by
    rw [BitVec.add_comm, BitVec.add_sub_cancel, BitVec.toNat_ofNat, Nat.mod_eq_of_lt (by omega)]
  rw [byteAt_store _ _ _ _ _ hn, hoff, if_pos hi]

/-- A byte at none of the n written addresses keeps its value (R54). -/
theorem byteAt_store_outside {w n : Nat} {a b : Word} (m : Memory) (v : BitVec w) (hn : n ≤ 2 ^ 32)
    (hb : ∀ i < n, b ≠ a + BitVec.ofNat 32 i) : (m.store a v n).byteAt b = m.byteAt b := by
  have hfar : ¬ (b - a).toNat < n := fun hlt => hb _ hlt <| by
    rw [BitVec.ofNat_toNat, BitVec.setWidth_eq, BitVec.add_comm, BitVec.sub_add_cancel]
  rw [byteAt_store _ _ _ _ _ hn, if_neg hfar]

/-- When the n bytes from `a` are the low bytes of `v`, `MemRead(a, n)` is the low 8n bits of `v`: each bit lies in one
byte of the access. -/
theorem load_eq_setWidth {w n : Nat} {m : Memory} {a : Word} {v : BitVec w}
    (h : ∀ i < n, m.byteAt (a + BitVec.ofNat 32 i) = v.extractLsb' (8 * i) 8) : m.load a n = v.setWidth (8 * n) := by
  ext k hk
  have hbyte := (byte_of_load m a n (k / 8) (by omega)).trans (h (k / 8) (by omega))
  have hbit := congrArg (·.getLsbD (k % 8)) hbyte
  have hpos : 8 * (k / 8) + k % 8 = k := Nat.div_add_mod k 8
  simpa [BitVec.getLsbD_extractLsb', hpos, Nat.mod_lt k, hk] using hbit

/-- Settles O14: the bytes inside and outside the write are the two cases of `byteAt_store`, the load reads those bytes
back, a narrow store ends in the write itself, and no instruction touches the instruction map. -/
theorem memWriteStoresExactly : Obligations.MemWriteStoresExactly := by
  refine ⟨fun w n m a v hn _ => ?_, fun rs1 rs2 imm s => ⟨⟨_, rfl, rfl⟩, ⟨_, rfl, rfl⟩⟩,
    fun i s t h => (exec_untouched h).1⟩
  have hn : n ≤ 2 ^ 32 := by
    simp only [List.mem_cons, List.not_mem_nil, or_false] at hn
    omega
  have hin : ∀ i < n, (m.store a v n).byteAt (a + BitVec.ofNat 32 i) = v.extractLsb' (8 * i) 8 :=
    fun i hi => byteAt_store_inside m a v hn hi
  exact ⟨hin, fun b hb => byteAt_store_outside m v hn hb, load_eq_setWidth hin⟩

end Sys2Proof.Proofs
end

section
/-! Decoding an encoded word (30_encoding.md R94): the instruction comes back, and with it the signed value of an
immediate that was encoded as its two's complement pattern. -/

namespace Sys2Proof.Proofs

open Sys2Proof.Machine

/-- The decoder inverts the encoder on every instruction that has an encoding: the word is selected by the
instruction's own row and holds the instruction's operands. -/
theorem decode_encode {i : Instr} (h : i.wf = true) : decode (encode i) = .ok i :=
  decode_eq_ok.mpr ⟨selects_encode i, (operandsOf_encode h).symm⟩

/-- Sign extension to a word gives back a number in the signed range of the pattern it was written as. -/
theorem toInt_signExtend_ofInt {w : Nat} {v : Int} (hpos : 0 < w) (hw : w ≤ 32) (hlo : -2 ^ (w - 1) ≤ v)
    (hhi : v ≤ 2 ^ (w - 1) - 1) : ((BitVec.ofInt w v).signExtend 32).toInt = v := by
  rw [BitVec.toInt_signExtend_of_le hw, BitVec.toInt_ofInt_eq_self hpos hlo (Int.lt_of_le_sub_one hhi)]

/-- The pattern of an even number has bit 0 clear (R90, R92): the number is `k + k`, and no carry enters bit 0 of the
sum. -/
theorem getLsbD_zero_ofInt {w : Nat} {v : Int} (hpos : 0 < w) (heven : v % 2 = 0) :
    (BitVec.ofInt w v).getLsbD 0 = false := by
  obtain ⟨k, rfl⟩ := Int.even_iff.mpr heven
  rw [BitVec.ofInt_add, BitVec.getLsbD_add hpos, BitVec.carry_zero, Bool.xor_false, Bool.xor_self]

/-- Settles O1: `decode_encode` for the instruction, with an even offset for a branch and JAL, and the sign extension of
the decoded pattern for the value. -/
theorem decodeInvertsEncode : Obligations.DecodeInvertsEncode := by
  refine ⟨fun i => decode_encode, fun v rd rs1 rs2 hlo hhi => ?imm12, fun v rs1 rs2 hlo hhi heven => ?imm13,
    fun v rd hlo hhi heven => ?imm21⟩
  case imm12 =>
    have hv : (imm12 (BitVec.ofInt 12 v)).toInt = v := toInt_signExtend_ofInt (by decide) (by decide) hlo hhi
    exact ⟨⟨_, decode_encode rfl, hv⟩, _, decode_encode rfl, hv⟩
  case imm13 =>
    have hwf : (Instr.blt rs1 rs2 (BitVec.ofInt 13 v)).wf = true := by
      rw [Instr.wf, getLsbD_zero_ofInt (by decide) heven, Bool.not_false]
    exact ⟨_, decode_encode hwf, toInt_signExtend_ofInt (by decide) (by decide) hlo hhi⟩
  case imm21 =>
    have hwf : (Instr.jal rd (BitVec.ofInt 21 v)).wf = true := by
      rw [Instr.wf, getLsbD_zero_ofInt (by decide) heven, Bool.not_false]
    exact ⟨_, decode_encode hwf, toInt_signExtend_ofInt (by decide) (by decide) hlo hhi⟩

end Sys2Proof.Proofs
end

section
/-! Integer register-register instructions (41_integer_register.md): the word that a table row's match and mask pick is
that row's instruction (30_encoding.md R95), and the whole effect of an instruction that ends in `writeResult` (R160). -/

namespace Sys2Proof.Proofs

open Sys2Proof.Machine Sys2Proof.Spec

/-- A field that the mask covers is untouched by masking. -/
theorem extractLsb'_and_of_covered {k lo n : Nat} {w mask : BitVec k}
    (hmask : mask.extractLsb' lo n = BitVec.allOnes n) : (w &&& mask).extractLsb' lo n = w.extractLsb' lo n := by
  rw [BitVec.extractLsb'_and, hmask, BitVec.and_allOnes]

/-- The mask of a row covers the opcode and whichever of funct3 and funct7 the row has, so masking a word does not change
whether the row selects it. -/
theorem selects_masked (m : Mnemonic) (w : Word) :
    (tableRow m).selects (opcodeOf (w &&& (tableRow m).mask)) (funct3Of (w &&& (tableRow m).mask))
        (funct7Of (w &&& (tableRow m).mask)) =
      (tableRow m).selects (opcodeOf w) (funct3Of w) (funct7Of w) := by
  have hopcode : opcodeOf (w &&& (tableRow m).mask) = opcodeOf w :=
    extractLsb'_and_of_covered (by cases m <;> decide)
  have hfunct3 : (tableRow m).funct3 = none ∨ funct3Of (w &&& (tableRow m).mask) = funct3Of w :=
    (show _ ∨ (tableRow m).mask.extractLsb' 12 3 = BitVec.allOnes 3 by cases m <;> decide).imp_right
      extractLsb'_and_of_covered
  have hfunct7 : (tableRow m).funct7 = none ∨ funct7Of (w &&& (tableRow m).mask) = funct7Of w :=
    (show _ ∨ (tableRow m).mask.extractLsb' 25 7 = BitVec.allOnes 7 by cases m <;> decide).imp_right
      extractLsb'_and_of_covered
  rcases hfunct3 with h3 | h3 <;> rcases hfunct7 with h7 | h7 <;> simp [TableRow.selects, hopcode, h3, h7]

/-- The match column of a row holds the row's own selector values. -/
theorem selects_pattern (m : Mnemonic) :
    (tableRow m).selects (opcodeOf (tableRow m).pattern) (funct3Of (tableRow m).pattern)
      (funct7Of (tableRow m).pattern) = true := by
  cases m <;> decide

/-- A word that matches an instruction's row under the row's mask, and holds the instruction's operands where the row's
format has them, decodes to that instruction (R95, R96). -/
theorem decode_of_match {w : Word} {i : Instr} (hmatch : w &&& i.row.mask = i.row.pattern)
    (hoperands : i.operands = operandsOf i.row.format w) : decode w = .ok i := by
  have hselects := selects_masked i.mnemonic w
  rw [show w &&& (tableRow i.mnemonic).mask = (tableRow i.mnemonic).pattern from hmatch, selects_pattern] at hselects
  exact decode_eq_ok.mpr ⟨hselects.symm, hoperands⟩

/-- The whole effect of a write-back, with x0 as destination or any other register (10_state.md R21, R22). -/
theorem writesReg_writeBack (s : State) (rd : Reg) (v target : Word) :
    WritesReg s (s.writeBack rd v target) rd v target := by
  refine ⟨fun r => ?_, by simp, fun a => by simp, by simp, by simp, by simp⟩
  by_cases hr : r = 0
  · rw [if_pos hr, hr]
    exact reg_zero _
  · have hwritten : (r = rd ∧ rd ≠ 0) ↔ r = rd := and_iff_left_of_imp fun h => h ▸ hr
    rw [writeBack_reg, if_neg hr, if_congr hwritten rfl rfl]

/-- An instruction that ends in `writeResult` completes, writes that result and goes to pc + 4 (R160). -/
theorem yields_of_writeResult {i : Instr} {s : State} {rd : Reg} {v : Word} {P : Word → Prop}
    (hexec : exec i s = s.writeResult rd v) (hv : P v) :
    Yields i s fun t => ∃ v, WritesReg s t rd v (s.pc + 4) ∧ P v :=
  ⟨_, hexec.trans (writeResult_eq s rd v), v, writesReg_writeBack s rd v s.pcSeq, hv⟩

/-- Settles O17: the word is the one the ADD row's match and mask pick, and the written sum of two words is their sum as
numbers modulo 2^32. -/
theorem addWritesSum : Obligations.AddWritesSum :=
  ⟨fun _ hmatch => decode_of_match hmatch rfl,
    fun _ rs1 rs2 s => yields_of_writeResult rfl (BitVec.toNat_add (s.reg rs1) (s.reg rs2))⟩

/-- Settles O18: the word is the one the SUB row's match and mask pick, and the written difference of two words is their
difference as signed numbers, wrapped modulo 2^32. -/
theorem subWritesDifference : Obligations.SubWritesDifference :=
  ⟨fun _ hmatch => decode_of_match hmatch rfl,
    fun _ rs1 rs2 s => yields_of_writeResult rfl (BitVec.toInt_sub (x := s.reg rs1) (y := s.reg rs2))⟩

end Sys2Proof.Proofs
end

section
/-! The image load of an assembled listing (70_reset_and_hazards.md R272 to R274): what the loader holds after the text
lines, and after the data lines that follow the sentinel, each as a function of the address. -/

namespace Sys2Proof.Proofs

open Sys2Proof.Machine Sys2Proof.Spec

/-! ### Lists and addresses -/

/-- A list with one element more holds that element at its old length, and its old elements elsewhere. -/
theorem getElem?_concat {α : Type} (xs : List α) (x : α) (k : Nat) :
    (xs ++ [x])[k]? = if k = xs.length then some x else xs[k]? := by
  split
  next h => rw [h, List.getElem?_concat_length]
  next h =>
    obtain hlt | hgt := Nat.lt_or_gt_of_ne h
    · exact List.getElem?_append_left hlt
    · rw [List.getElem?_eq_none hgt.le, List.getElem?_eq_none (by rw [List.length_append]; exact hgt)]

/-- A number below 2^32 is the address it is written as. -/
theorem toNat_ofNat_of_lt {n : Nat} (hn : n < 2 ^ 32) : (BitVec.ofNat 32 n).toNat = n := by
  rw [BitVec.toNat_ofNat, Nat.mod_eq_of_lt hn]

/-- An address is the n-th from `a` exactly when its distance from `a`, modulo 2^32, is n. -/
theorem eq_add_ofNat_iff {n : Nat} (a b : Word) (hn : n < 2 ^ 32) : b = a + BitVec.ofNat 32 n ↔ (b - a).toNat = n := by
  rw [← BitVec.toNat_inj, BitVec.toNat_add, BitVec.toNat_sub, toNat_ofNat_of_lt hn]
  omega

/-! ### The loader, line by line (R272) -/

/-- The last line of a listing is read by the loader that the lines before it leave. -/
theorem loaderLines_concat {l l' : Loader} {xs : List Line} (h : l.lines xs = some l') (x : Line) :
    l.lines (xs ++ [x]) = l'.line x := by
  rw [loaderLines_append, h, Option.bind_some, Loader.lines]
  cases l'.line x <;> rfl

/-- In the text phase the sentinel line begins the data phase and loads nothing. -/
theorem loaderLine_sentinel {l : Loader} (hphase : l.dataPhase = false) (a : Word) :
    l.line ⟨a, Config.sentinel⟩ = some { l with dataPhase := true } := by
  simp [Loader.line, hphase]

/-- In the text phase any other line loads its word into both memories. -/
theorem loaderLine_text {l : Loader} {w : Word} (hphase : l.dataPhase = false) (hw : w ≠ Config.sentinel) (a : Word) :
    l.line ⟨a, w⟩ = some { l with imem := l.imem.setEntry a w, mem := l.mem.store a w 4 } := by
  simp [Loader.line, hphase, hw]

/-- In the data phase a line with a byte as its number loads that byte into data memory. -/
theorem loaderLine_data {l : Loader} (hphase : l.dataPhase = true) (a : Word) (b : Byte) :
    l.line ⟨a, b.setWidth 32⟩ = some { l with mem := l.mem.setByte a b } := by
  have hbyte : (b.setWidth 32).toNat < 256 := by
    rw [BitVec.toNat_setWidth_of_le (by decide)]
    exact b.isLt
  have hlow : (b.setWidth 32).extractLsb' 0 8 = b := by
    rw [← BitVec.setWidth_eq_extractLsb' (by decide), BitVec.setWidth_setWidth_of_le _ (by decide), BitVec.setWidth_eq]
  rw [Loader.line, if_pos hphase, if_pos hbyte, hlow]

/-! ### The text lines -/

/-- The text lines the assembler writes: one word per line, from address 0 in steps of 4 (R113). -/
def textSegment (ws : List Word) : List Line := ws.mapIdx fun i w => ⟨BitVec.ofNat 32 (4 * i), w⟩

/-- The byte at address `k` of the words `ws` laid out little-endian from address 0, zero past their end. -/
def wordsByte (ws : List Word) (k : Nat) : Byte := (ws[k / 4]?.map fun w => w.extractLsb' (8 * (k % 4)) 8).getD 0

/-- What the loader holds once it has read the text lines of `ws`. -/
structure TextLoaded (ws : List Word) (l : Loader) : Prop where
  phase : l.dataPhase = false
  entry : ∀ a : Word, l.imem.entry a = if a.toNat % 4 = 0 then ws[a.toNat / 4]? else none
  byte : ∀ a : Word, l.mem.byteAt a = wordsByte ws a.toNat

/-- The text line of the next word extends the loaded text by that word. -/
theorem textLoaded_concat {ws : List Word} {l : Loader} (h : TextLoaded ws l) (w : Word)
    (hfit : 4 * ws.length + 4 ≤ 2 ^ 32) :
    TextLoaded (ws ++ [w])
      { l with imem := l.imem.setEntry (BitVec.ofNat 32 (4 * ws.length)) w
               mem := l.mem.store (BitVec.ofNat 32 (4 * ws.length)) w 4 } := by
  refine ⟨h.phase, fun a => ?entry, fun a => ?byte⟩
  case entry =>
    have hat : a = BitVec.ofNat 32 (4 * ws.length) ↔ a.toNat % 4 = 0 ∧ a.toNat / 4 = ws.length := by
      rw [← BitVec.toNat_inj, BitVec.toNat_ofNat]
      omega
    rw [entry_setEntry, h.entry, getElem?_concat, if_congr hat rfl rfl]
    by_cases haligned : a.toNat % 4 = 0 <;> simp [haligned]
  case byte =>
    have hin : (a - BitVec.ofNat 32 (4 * ws.length)).toNat < 4 ↔ a.toNat / 4 = ws.length := by
      rw [BitVec.toNat_sub, BitVec.toNat_ofNat]
      omega
    rw [byteAt_store _ _ _ _ _ (by decide), h.byte, wordsByte, wordsByte, getElem?_concat, if_congr hin rfl rfl]
    split
    next hword =>
      have hoff : (a - BitVec.ofNat 32 (4 * ws.length)).toNat = a.toNat % 4 := by
        rw [BitVec.toNat_sub, BitVec.toNat_ofNat]
        omega
      rw [hoff, Option.map_some, Option.getD_some]
    next => rfl

/-- Text lines that hold no sentinel and fit the address space are all loaded, by induction on their number. -/
theorem lines_textSegment {ws : List Word} (hws : ∀ w ∈ ws, w ≠ Config.sentinel) (hfit : 4 * ws.length ≤ 2 ^ 32) :
    ∃ l, Loader.start.lines (textSegment ws) = some l ∧ TextLoaded ws l := by
  induction ws using List.reverseRecOn with
  | nil => exact ⟨_, rfl, rfl, fun a => (ite_self none).symm, fun a => rfl⟩
  | append_singleton ws w ih =>
    rw [List.length_append, List.length_singleton] at hfit
    obtain ⟨l, hl, htext⟩ := ih (fun v hv => hws v (List.mem_append_left _ hv)) (by omega)
    refine ⟨_, ?_, textLoaded_concat htext w (by omega)⟩
    rw [textSegment, List.mapIdx_concat]
    exact (loaderLines_concat hl _).trans (loaderLine_text htext.phase (hws w (by simp)) _)

/-! ### The data lines -/

/-- The data lines the assembler writes: one byte per line, in ascending order from `base` (R113). -/
def dataSegment (base : Word) (ds : List Byte) : List Line :=
  ds.mapIdx fun j b => ⟨base + BitVec.ofNat 32 j, b.setWidth 32⟩

/-- What the loader holds once it has read the data lines of `ds` on top of the loader `l₀`. -/
structure DataLoaded (base : Word) (ds : List Byte) (l₀ l : Loader) : Prop where
  phase : l.dataPhase = true
  imem : l.imem = l₀.imem
  byte : ∀ a : Word, l.mem.byteAt a = (ds[(a - base).toNat]?).getD (l₀.mem.byteAt a)

/-- The data line of the next byte extends the loaded data by that byte. -/
theorem dataLoaded_concat {base : Word} {ds : List Byte} {l₀ l : Loader} (h : DataLoaded base ds l₀ l) (b : Byte)
    (hfit : ds.length < 2 ^ 32) :
    DataLoaded base (ds ++ [b]) l₀ { l with mem := l.mem.setByte (base + BitVec.ofNat 32 ds.length) b } := by
  refine ⟨h.phase, h.imem, fun a => ?_⟩
  rw [byteAt_setByte, h.byte, getElem?_concat, if_congr (eq_add_ofNat_iff base a hfit) rfl rfl]
  split <;> rfl

/-- Data lines no more than there are addresses are all loaded, by induction on their number. -/
theorem lines_dataSegment {l₀ : Loader} (hphase : l₀.dataPhase = true) (base : Word) {ds : List Byte}
    (hfit : ds.length ≤ 2 ^ 32) : ∃ l, l₀.lines (dataSegment base ds) = some l ∧ DataLoaded base ds l₀ l := by
  induction ds using List.reverseRecOn with
  | nil => exact ⟨l₀, rfl, hphase, rfl, fun a => rfl⟩
  | append_singleton ds b ih =>
    rw [List.length_append, List.length_singleton] at hfit
    obtain ⟨l, hl, hdata⟩ := ih (by omega)
    refine ⟨_, ?_, dataLoaded_concat hdata b (by omega)⟩
    rw [dataSegment, List.mapIdx_concat]
    exact (loaderLines_concat hl _).trans (loaderLine_data hdata.phase _ b)

/-! ### The whole listing (R274) -/

/-- An assembled listing boots to a state whose instruction map is its words, and whose data memory is its data bytes
over its words. -/
theorem boot_assembledListing {ws : List Word} {ds : List Byte} (base : Word) (hws : ∀ w ∈ ws, w ≠ Config.sentinel)
    (htextFit : 4 * ws.length ≤ 2 ^ 32) (hdataFit : ds.length ≤ 2 ^ 32) :
    ∃ s, State.boot (assembledListing ws ds base) = some s ∧
      (∀ a : Word, s.imem.entry a = if a.toNat % 4 = 0 then ws[a.toNat / 4]? else none) ∧
      ∀ a : Word, s.mem.byteAt a = (ds[(a - base).toNat]?).getD (wordsByte ws a.toNat) := by
  obtain ⟨l₁, hl₁, htext⟩ := lines_textSegment hws htextFit
  obtain ⟨l₂, hl₂, hdata⟩ := lines_dataSegment (l₀ := { l₁ with dataPhase := true }) rfl base hdataFit
  have hlines : Loader.start.lines (assembledListing ws ds base) = some l₂ := by
    rw [show assembledListing ws ds base = textSegment ws ++ ⟨_, Config.sentinel⟩ :: dataSegment base ds from rfl,
      loaderLines_append, hl₁, Option.bind_some, Loader.lines, loaderLine_sentinel htext.phase]
    exact hl₂
  refine ⟨{ State.reset with imem := l₂.imem, mem := l₂.mem }, by rw [State.boot, hlines, Option.map_some],
    fun a => ?_, fun a => ?_⟩
  · exact (congrArg (·.entry a) hdata.imem).trans (htext.entry a)
  · exact (hdata.byte a).trans (congrArg _ (htext.byte a))

/-- Settles O10: each clause reads one address off the loaded image. An address of the text is below the data base, so
its distance from the base modulo 2^32 is past the data. -/
theorem assembledListingLoads : Obligations.AssembledListingLoads := by
  intro ws ds base hws hbase htop
  have hlt := base.isLt
  obtain ⟨s, hboot, hentry, hbyte⟩ := boot_assembledListing (ds := ds) base hws (by omega) (by omega)
  refine ⟨s, hboot, fun i hi => ?word, fun a ha => ?noEntry, ?sentinel, fun i hi j hj => ?textByte,
    fun j hj => ?dataByte, fun a hpast ha => ?elsewhere⟩
  case word =>
    have hat : (BitVec.ofNat 32 (4 * i)).toNat = 4 * i := toNat_ofNat_of_lt (by omega)
    rw [hentry, hat, if_pos (by omega), Nat.mul_div_cancel_left i (by decide), List.getElem?_eq_getElem hi]
  case noEntry =>
    rw [hentry]
    split
    next haligned =>
      refine List.getElem?_eq_none (Nat.le_of_not_lt fun hword => ha _ hword ?_)
      rw [Nat.mul_div_cancel' (Nat.dvd_of_mod_eq_zero haligned), BitVec.ofNat_toNat, BitVec.setWidth_eq]
    next => rfl
  case sentinel =>
    have hat : (BitVec.ofNat 32 (4 * ws.length)).toNat = 4 * ws.length := toNat_ofNat_of_lt (by omega)
    rw [hentry, hat, if_pos (by omega), Nat.mul_div_cancel_left _ (by decide), List.getElem?_eq_none (Nat.le_refl _)]
  case textByte =>
    have hat : (BitVec.ofNat 32 (4 * i + j)).toNat = 4 * i + j := toNat_ofNat_of_lt (by omega)
    have hnoData : ds.length ≤ (BitVec.ofNat 32 (4 * i + j) - base).toNat := by
      rw [BitVec.toNat_sub, hat]
      omega
    rw [hbyte, List.getElem?_eq_none hnoData, Option.getD_none, hat, wordsByte, show (4 * i + j) / 4 = i by omega,
      show (4 * i + j) % 4 = j by omega, List.getElem?_eq_getElem hi, Option.map_some, Option.getD_some]
  case dataByte =>
    have hoff : (base + BitVec.ofNat 32 j - base).toNat = j := (eq_add_ofNat_iff base _ (by omega)).mp rfl
    rw [hbyte, hoff, List.getElem?_eq_getElem hj, Option.getD_some]
  case elsewhere =>
    have hnoData : ds.length ≤ (a - base).toNat := Nat.le_of_not_lt fun hdata =>
      ha _ hdata ((eq_add_ofNat_iff base a (a - base).isLt).mpr rfl)
    have hnoWord : ws.length ≤ a.toNat / 4 := by omega
    rw [hbyte, List.getElem?_eq_none hnoData, Option.getD_none, wordsByte, List.getElem?_eq_none hnoWord]
    rfl

end Sys2Proof.Proofs
end

section
/-! The decoder and the opcode map (30_encoding.md sections 2 to 6): a word that decodes is selected by one row, matches
that row under its mask, and holds the operands of the row's format at the bits the format names. -/

namespace Sys2Proof.Proofs

open Sys2Proof.Machine Sys2Proof.Spec

/-! ### The word of a decoded instruction -/

/-- An instruction with the operands of a word has an encoding: the decoder gathers even offsets (R90, R92). -/
theorem wf_of_operands {i : Instr} {w : Word} (h : i.operands = operandsOf i.row.format w) : i.wf = true := by
  cases i
  case beq | bne | blt | bge =>
    injection h with _ _ hoff
    rw [Instr.wf, hoff, immSBOf_even, Bool.not_false]
  case jal =>
    injection h with _ hoff
    rw [Instr.wf, hoff, immUJOf_even, Bool.not_false]
  all_goals rfl

theorem wf_of_decode {w : Word} {i : Instr} (h : decode w = .ok i) : i.wf = true :=
  wf_of_operands (decode_eq_ok.mp h).2

/-- The encoder inverts the decoder: the word is the row's encoding of the operands read from it. -/
theorem encode_of_decode {w : Word} {i : Instr} (h : decode w = .ok i) : encode i = w := by
  obtain ⟨hselects, hoperands⟩ := decode_eq_ok.mp h
  rw [encode, hoperands]
  exact encodeWith_operandsOf hselects

/-- Settles O2: the word is the encoding of its own fields, and the offsets gathered from it are even. -/
theorem encodeInvertsDecode : Obligations.EncodeInvertsDecode :=
  fun _ _ h => ⟨encode_of_decode h, wf_of_decode h⟩

/-! ### Match and mask (R95) -/

/-- The word of an instruction matches the instruction's row. -/
theorem encode_matches : ∀ i : Instr, encode i &&& i.row.mask = i.row.pattern
  | .add .. => Laws.RowMatch.add ..
  | .sub .. => Laws.RowMatch.sub ..
  | .sll .. => Laws.RowMatch.sll ..
  | .slt .. => Laws.RowMatch.slt ..
  | .xor .. => Laws.RowMatch.xor ..
  | .srl .. => Laws.RowMatch.srl ..
  | .sra .. => Laws.RowMatch.sra ..
  | .or .. => Laws.RowMatch.or ..
  | .and .. => Laws.RowMatch.and ..
  | .mul .. => Laws.RowMatch.mul ..
  | .div .. => Laws.RowMatch.div ..
  | .rem .. => Laws.RowMatch.rem ..
  | .addi .. => Laws.RowMatch.addi ..
  | .andi .. => Laws.RowMatch.andi ..
  | .ori .. => Laws.RowMatch.ori ..
  | .lui .. => Laws.RowMatch.lui ..
  | .auipc .. => Laws.RowMatch.auipc ..
  | .jal .. => Laws.RowMatch.jal ..
  | .jalr .. => Laws.RowMatch.jalr ..
  | .beq .. => Laws.RowMatch.beq ..
  | .bne .. => Laws.RowMatch.bne ..
  | .blt .. => Laws.RowMatch.blt ..
  | .bge .. => Laws.RowMatch.bge ..
  | .lb .. => Laws.RowMatch.lb ..
  | .lh .. => Laws.RowMatch.lh ..
  | .lw .. => Laws.RowMatch.lw ..
  | .ld .. => Laws.RowMatch.ld ..
  | .sb .. => Laws.RowMatch.sb ..
  | .sh .. => Laws.RowMatch.sh ..
  | .sw .. => Laws.RowMatch.sw ..
  | .sd .. => Laws.RowMatch.sd ..

/-- A row picks a word by match and mask exactly when the word decodes to an instruction of that row. -/
theorem matches_iff_decode (m : Mnemonic) (w : Word) :
    w &&& (tableRow m).mask = (tableRow m).pattern ↔ ∃ i, decode w = .ok i ∧ i.mnemonic = m := by
  constructor
  · intro hmatch
    obtain ⟨i, hi⟩ := instr_operandsOf m w
    obtain ⟨rfl, hoperands⟩ := instr_eq_some hi
    exact ⟨i, decode_of_match hmatch hoperands, rfl⟩
  · rintro ⟨i, hdec, rfl⟩
    have hmatch := encode_matches i
    rwa [encode_of_decode hdec] at hmatch

theorem mem_opcodeTable {row : TableRow} : row ∈ opcodeTable ↔ ∃ m, tableRow m = row := by
  rw [opcodeTable, List.mem_map]
  exact ⟨fun ⟨m, _, hm⟩ => ⟨m, hm⟩, fun ⟨m, hm⟩ => ⟨m, mem_all m, hm⟩⟩

/-- Two mnemonics with one row are the same: the selector values of its match column pick one mnemonic. -/
theorem tableRow_injective : Function.Injective tableRow := fun m m' h => by
  have hm := lookup_of_selects (selects_pattern m)
  rw [h, lookup_of_selects (selects_pattern m')] at hm
  exact (Option.some.inj hm).symm

/-- Settles O3: a row picks exactly the words that decode to its instruction; no word is picked by two rows, because a
word decodes to one instruction. -/
theorem decodeMatchesOpcodeMap : Obligations.DecodeMatchesOpcodeMap := by
  refine ⟨rfl, fun w row hrow => ?picks, fun w row row' hrow hrow' h h' => ?disjoint,
    fun i => mem_opcodeTable.mpr ⟨i.mnemonic, rfl⟩⟩
  case picks =>
    obtain ⟨m, rfl⟩ := mem_opcodeTable.mp hrow
    rw [matches_iff_decode]
    exact exists_congr fun i => and_congr_right fun _ => tableRow_injective.eq_iff.symm
  case disjoint =>
    obtain ⟨m, rfl⟩ := mem_opcodeTable.mp hrow
    obtain ⟨m', rfl⟩ := mem_opcodeTable.mp hrow'
    obtain ⟨i, hi, rfl⟩ := (matches_iff_decode m w).mp h
    obtain ⟨i', hi', rfl⟩ := (matches_iff_decode m' w).mp h'
    obtain rfl : i = i' := Except.ok.inj (hi.symm.trans hi')
    rfl

/-- Settles O4: each word decodes by running the decoder. -/
theorem sampleWordsDecode : Obligations.SampleWordsDecode := by
  unfold Obligations.SampleWordsDecode
  decide

/-! ### Where a word holds its operands (R82 to R92) -/

theorem regAt_extractLsb' (w : Word) (lo : Nat) : RegAt w lo (w.extractLsb' lo 5) := by
  rw [RegAt, BitVec.extractLsb'_toNat, Nat.shiftRight_eq_div_pow]

theorem immIAt_immIOf (w : Word) : ImmIAt w (immIOf w) := fun k hk => by
  simp [immIOf, hk]

theorem immSAt_immSOf (w : Word) : ImmSAt w (immSOf w) := fun k hk => by
  rw [bits_immSOf w k hk, apply_ite w.getLsbD, Nat.add_comm k, Nat.add_comm k]

theorem immSBAt_immSBOf (w : Word) : ImmSBAt w (immSBOf w) := by
  refine ⟨immSBOf_even w, fun k hlo hhi => ?_⟩
  rw [bits_immSBOf w k hhi]
  interval_cases k <;> rfl

theorem immUAt_immUOf (w : Word) : ImmUAt w (immUOf w) := fun k hk => by
  simp [immUOf, hk]

theorem immUJAt_immUJOf (w : Word) : ImmUJAt w (immUJOf w) := by
  refine ⟨immUJOf_even w, fun k hlo hhi => ?_⟩
  rw [bits_immUJOf w k hhi]
  interval_cases k <;> rfl

/-- A decoded instruction's operands are the bits of the word that its format names. -/
theorem operandsAt_of_decode {w : Word} {i : Instr} (h : decode w = .ok i) : OperandsAt w i := by
  obtain ⟨-, hoperands⟩ := decode_eq_ok.mp h
  cases i
  case add | sub | sll | slt | xor | srl | sra | or | and | mul | div | rem =>
    obtain ⟨rfl, rfl, rfl⟩ := Operands.R.inj hoperands
    exact ⟨regAt_extractLsb' w 7, regAt_extractLsb' w 15, regAt_extractLsb' w 20⟩
  case addi | andi | ori | jalr | lb | lh | lw | ld =>
    obtain ⟨rfl, rfl, rfl⟩ := Operands.I.inj hoperands
    exact ⟨regAt_extractLsb' w 7, regAt_extractLsb' w 15, immIAt_immIOf w⟩
  case sb | sh | sw | sd =>
    obtain ⟨rfl, rfl, rfl⟩ := Operands.S.inj hoperands
    exact ⟨regAt_extractLsb' w 15, regAt_extractLsb' w 20, immSAt_immSOf w⟩
  case beq | bne | blt | bge =>
    obtain ⟨rfl, rfl, rfl⟩ := Operands.SB.inj hoperands
    exact ⟨regAt_extractLsb' w 15, regAt_extractLsb' w 20, immSBAt_immSBOf w⟩
  case lui | auipc =>
    obtain ⟨rfl, rfl⟩ := Operands.U.inj hoperands
    exact ⟨regAt_extractLsb' w 7, immUAt_immUOf w⟩
  case jal =>
    obtain ⟨rfl, rfl⟩ := Operands.UJ.inj hoperands
    exact ⟨regAt_extractLsb' w 7, immUJAt_immUJOf w⟩

/-- Settles O55: an encoded word decodes to its instruction, so the rule for decoded words covers it. -/
theorem operandsAreTheBitsTheFormatNames : Obligations.OperandsAreTheBitsTheFormatNames :=
  ⟨fun _ _ => operandsAt_of_decode, fun _ hwf => operandsAt_of_decode (decode_encode hwf)⟩

/-! ### The decoder's outputs (R104) -/

/-- Sign extension copies the field's top bit into every position from it up. -/
theorem getLsbD_signExtend_min {n k : Nat} (x : BitVec (n + 1)) (hk : k < 32) :
    (x.signExtend 32).getLsbD k = x.getLsbD (min k n) := by
  rw [BitVec.getLsbD_signExtend, decide_eq_true hk, Bool.true_and, BitVec.msb_eq_getLsbD_last]
  split
  next h => rw [Nat.min_eq_left (by omega)]
  next h => rw [Nat.min_eq_right (by omega), Nat.add_sub_cancel]

/-- The 32-bit immediate of a word of a format, absent in the R-format (R88 to R92). -/
def wordImm (w : Word) : Format → Option Word
  | .R => none
  | .I => some (imm12 (immIOf w))
  | .S => some (imm12 (immSOf w))
  | .SB => some (imm13 (immSBOf w))
  | .U => some (immUpper (immUOf w))
  | .UJ => some (imm21 (immUJOf w))

/-- Each bit of a word's immediate is the bit of the word that the format's rule names. -/
theorem getLsbD_wordImm {w v : Word} {k : Nat} {format : Format} (h : wordImm w format = some v) (hk : k < 32) :
    v.getLsbD k = immBit w k format := by
  cases format <;> cases h
  case I =>
    rw [imm12, getLsbD_signExtend_min _ hk, immIAt_immIOf w _ (by omega), immBit]
    congr 1
    split <;> omega
  case S =>
    rw [imm12, getLsbD_signExtend_min _ hk, immSAt_immSOf w _ (by omega), immBit]
    congr 1
    split_ifs <;> omega
  case SB =>
    rw [imm13, getLsbD_signExtend_min _ hk, bits_immSBOf w _ (by omega), immBit]
    interval_cases k <;> simp
  case U =>
    rw [immUpper, BitVec.getLsbD_append, immBit]
    split
    next h => simp [h]
    next h =>
      rw [immUAt_immUOf w _ (by omega), Nat.add_sub_cancel' (Nat.le_of_not_lt h), decide_eq_true (Nat.le_of_not_lt h),
        Bool.true_and]
  case UJ =>
    rw [imm21, getLsbD_signExtend_min _ hk, bits_immUJOf w _ (by omega), immBit]
    interval_cases k <;> simp

theorem format_eq_formatOf (i : Instr) : i.row.format = formatOf i := by cases i <;> rfl

/-- A row has funct3 and funct7 exactly where its format does. -/
theorem isSome_funct3 (m : Mnemonic) : (tableRow m).funct3.isSome = decide ((tableRow m).format ∈ [.R, .I, .S, .SB]) := by
  cases m <;> decide

theorem isSome_funct7 (m : Mnemonic) : (tableRow m).funct7.isSome = decide ((tableRow m).format = .R) := by
  cases m <;> decide

/-- A selector that is `x` wherever the row has it. -/
theorem eq_ite_of_isSome {α : Type} {o : Option α} {x : α} {p : Prop} [Decidable p] (h : ∀ y, o = some y → y = x)
    (hp : o.isSome = decide p) : o = if p then some x else none := by
  cases o with
  | none => exact (if_neg (by simpa using hp)).symm
  | some y => rw [h y rfl, if_pos (by simpa using hp)]

/-- The decoder's outputs, field by field, for the operands of a word. -/
theorem fieldsOf_of_operands {i : Instr} {w : Word} {format : Format} (h : i.operands = operandsOf format w) :
    fieldsOf i =
      { rd := if format ∈ [.R, .I, .U, .UJ] then some (rdOf w) else none
        rs1 := if format ∈ [.R, .I, .S, .SB] then some (rs1Of w) else none
        rs2 := if format ∈ [.R, .S, .SB] then some (rs2Of w) else none
        funct3 := i.row.funct3
        funct7 := i.row.funct7
        imm := wordImm w format } := by
  unfold fieldsOf
  rw [h]
  cases format <;> rfl

/-- Settles O56: the operands of a decoded word fix the outputs by its format, its row the selectors, and
`getLsbD_wordImm` the bits of the immediate. -/
theorem decodedFieldsFollowTheFormat : Obligations.DecodedFieldsFollowTheFormat := by
  intro w i h
  obtain ⟨hselects, hoperands⟩ := decode_eq_ok.mp h
  obtain ⟨hopcode, hfunct3, hfunct7⟩ := selectors_of_selects hselects
  rw [fieldsOf_of_operands hoperands, ← format_eq_formatOf]
  refine ⟨rfl, hopcode, rfl, rfl, rfl, eq_ite_of_isSome hfunct3 (isSome_funct3 _),
    eq_ite_of_isSome hfunct7 (isSome_funct7 _), ?_, fun v hv k hk => getLsbD_wordImm hv hk⟩
  cases i.row.format <;> simp [wordImm]

end Sys2Proof.Proofs
end

section
/-! One cycle (40_decode_control.md R131, 60_exceptions.md R242 to R245): what a step does in each of its four cases, that
a running core always has a next state, and the words the decoder rejects. -/

namespace Sys2Proof.Proofs

open Sys2Proof.Machine Sys2Proof.Spec

/-! ### The four cases of a step, in the words of the statements -/

theorem belowCeiling_iff (s : State) : BelowCeiling s ↔ ceilingExceeded (s.cycle + 1) = false := by
  rw [← Bool.not_eq_true, ceilingExceeded_iff, BelowCeiling, Nat.not_lt]

theorem not_belowCeiling_iff (s : State) : ¬ BelowCeiling s ↔ ceilingExceeded (s.cycle + 1) = true := by
  rw [belowCeiling_iff, Bool.not_eq_false]

section
variable {s : State} (hrun : s.run = .running)
include hrun

/-- Past the ceiling (R244), whatever lies at the pc. -/
theorem step_cycleLimit (hceil : ¬ BelowCeiling s) : step s = .next (haltedState s .cycleLimit) :=
  (step_of_running hrun).trans (runCycle_ceiling ((not_belowCeiling_iff s).mp hceil))

/-- On the halt word (R242). -/
theorem step_normal (hceil : BelowCeiling s) (hzero : s.imem.fetch s.pc = 0) :
    step s = .next (haltedState s .normal) :=
  (step_of_running hrun).trans (runCycle_normal ((belowCeiling_iff s).mp hceil) hzero)

/-- On a word that does not decode (R243). -/
theorem step_decodeError {e : DecodeError} (hceil : BelowCeiling s) (hzero : s.imem.fetch s.pc ≠ 0)
    (hdec : decode (s.imem.fetch s.pc) = .error e) : step s = .next (haltedState s .decodeError) :=
  (step_of_running hrun).trans (runCycle_decodeError ((belowCeiling_iff s).mp hceil) hzero hdec)

/-- On an instruction, which runs on the state whose counter has gone up. -/
theorem step_exec {i : Instr} (hceil : BelowCeiling s) (hzero : s.imem.fetch s.pc ≠ 0)
    (hdec : decode (s.imem.fetch s.pc) = .ok i) : step s = exec i { s with cycle := s.cycle + 1 } :=
  (step_of_running hrun).trans (runCycle_exec ((belowCeiling_iff s).mp hceil) hzero hdec)

end

/-- Settles O42: the fourth case of a step. -/
theorem stepRunsTheDecodedInstruction : Obligations.StepRunsTheDecodedInstruction :=
  fun _ _ hrun hceil hzero hdec => step_exec hrun hceil hzero hdec

/-- Everything a step that answers a next state can have done. -/
theorem step_cases {s t : State} (h : step s = .next t) :
    (¬ BelowCeiling s ∧ t = haltedState s .cycleLimit) ∨
    (BelowCeiling s ∧ t = haltedState s .normal) ∨
    (BelowCeiling s ∧ s.imem.fetch s.pc ≠ 0 ∧ (∃ e, decode (s.imem.fetch s.pc) = .error e) ∧
      t = haltedState s .decodeError) ∨
    (BelowCeiling s ∧ ∃ i, decode (s.imem.fetch s.pc) = .ok i ∧ exec i s.tick = .next t) := by
  obtain ⟨-, hcycle⟩ := step_next h
  rw [belowCeiling_iff, Bool.not_eq_false]
  obtain ⟨hc, ht⟩ | ⟨hc, -, ht⟩ | ⟨hc, hzero, he, ht⟩ | ⟨hc, -, i, hdec, hexec⟩ := runCycle_cases hcycle
  · exact .inl ⟨hc, ht⟩
  · exact .inr (.inl ⟨hc, ht⟩)
  · exact .inr (.inr (.inl ⟨hc, hzero, he, ht⟩))
  · exact .inr (.inr (.inr ⟨hc, i, hdec, hexec⟩))

/-- A step that answers either halts the core or executes an instruction. -/
theorem step_halts_or_executes {s t : State} (h : step s = .next t) :
    (∃ r, t = haltedState s r) ∨ ∃ i, decode (s.imem.fetch s.pc) = .ok i ∧ exec i s.tick = .next t := by
  obtain ⟨-, ht⟩ | ⟨-, ht⟩ | ⟨-, -, -, ht⟩ | ⟨-, hexec⟩ := step_cases h
  · exact .inl ⟨_, ht⟩
  · exact .inl ⟨_, ht⟩
  · exact .inl ⟨_, ht⟩
  · exact .inr hexec

/-- Every instruction answers a next state from every state. -/
theorem exec_total (i : Instr) (s : State) : ∃ t, exec i s = .next t := by
  cases i <;> exact ⟨_, rfl⟩

/-- A running core always has a next state. -/
theorem step_total {s : State} (hrun : s.run = .running) : ∃ t, step s = .next t := by
  by_cases hceil : BelowCeiling s
  · by_cases hzero : s.imem.fetch s.pc = 0
    · exact ⟨_, step_normal hrun hceil hzero⟩
    · cases hdec : decode (s.imem.fetch s.pc) with
      | error e => exact ⟨_, step_decodeError hrun hceil hzero hdec⟩
      | ok i =>
        rw [step_exec hrun hceil hzero hdec]
        exact exec_total i _
  · exact ⟨_, step_cycleLimit hrun hceil⟩

/-! ### Words the decoder rejects (30_encoding.md R98, R99) -/

theorem opcode_supported (m : Mnemonic) : (tableRow m).opcode ∈ supportedOpcodes := by cases m <;> decide

/-- Every one of the nine opcodes is the opcode of some row. -/
theorem opcodeTable_has_supported : ∀ op ∈ supportedOpcodes, opcodeTable.any (fun row => row.opcode == op) = true := by
  decide

/-- A word whose opcode is none of the nine is no instruction. -/
theorem decode_error_of_opcode {w : Word} (h : opcodeOf w ∉ supportedOpcodes) : decode w = .error (unsupported w) := by
  refine decode_eq_error.mpr ⟨fun m => ?_, rfl⟩
  by_contra hselects
  obtain ⟨hopcode, -, -⟩ := selectors_of_selects (by simpa using hselects)
  exact h (hopcode ▸ opcode_supported m)

/-- A word that no row picks by match and mask is no instruction. -/
theorem decode_error_of_no_match {w : Word} (h : ∀ row ∈ opcodeTable, w &&& row.mask ≠ row.pattern) :
    decode w = .error (unsupported w) := by
  cases hdec : decode w with
  | error e => rw [(decode_eq_error.mp hdec).2]
  | ok i => exact absurd ((matches_iff_decode i.mnemonic w).mpr ⟨i, hdec, rfl⟩) (h _ (mem_opcodeTable.mpr ⟨_, rfl⟩))

/-- Settles O5: no row has the opcode, so the cycle ends in its third case. -/
theorem unsupportedOpcodeHalts : Obligations.UnsupportedOpcodeHalts :=
  fun _ hrun hceil hzero hop => step_decodeError hrun hceil hzero (decode_error_of_opcode hop)

/-- Settles O6: no row picks the word but some row has its opcode, so the rejection names the function fields; the word
is not zero, whose opcode is none of the nine. -/
theorem unsupportedFunctionHalts : Obligations.UnsupportedFunctionHalts := by
  intro s hrun hceil hop hmatch
  have hdec := decode_error_of_no_match hmatch
  refine ⟨⟨_, _, _, hdec.trans (congrArg _ (if_pos (opcodeTable_has_supported _ hop)))⟩,
    step_decodeError hrun hceil (fun hzero => ?_) hdec⟩
  rw [hzero] at hop
  exact absurd hop (by decide)

/-- Settles O43: the second case of a step, and the zero word's opcode is none of the nine. -/
theorem zeroWordHaltsNormally : Obligations.ZeroWordHaltsNormally :=
  ⟨fun _ hrun hceil hzero => step_normal hrun hceil hzero, ⟨_, decode_error_of_opcode (by decide)⟩,
    fun _ _ => fetch_of_entry_none⟩

/-! ### The halts, one by one (60_exceptions.md R242 to R244) -/

/-- Settles O44: of the four cases of a step only the first halts with cycle-limit, and the slack is at most 2. -/
theorem cycleLimitHalts : Obligations.CycleLimitHalts := by
  intro s hrun
  have hslack := Config.ceilingSlack.isLt
  refine ⟨step_cycleLimit hrun, fun t h hlimit => ?_, fun hlow => ?_, fun hhigh => ?_⟩
  · obtain ⟨hceil, -⟩ | ⟨-, rfl⟩ | ⟨-, -, -, rfl⟩ | ⟨-, i, -, hexec⟩ := step_cases h
    · exact hceil
    · cases hlimit
    · cases hlimit
    · obtain ⟨-, -, hsame, -⟩ := exec_untouched hexec
      rw [hsame, tick_run, hrun] at hlimit
      cases hlimit
  · unfold BelowCeiling Config.cycleCeiling
    omega
  · unfold BelowCeiling Config.cycleCeiling
    omega

/-- Settles O47: the normal halt and an executed instruction are no errors. -/
theorem errorsComeFromCeilingOrDecode : Obligations.ErrorsComeFromCeilingOrDecode := by
  intro s t h herror
  obtain ⟨hrun, -⟩ := step_next h
  obtain ⟨hceil, -⟩ | ⟨-, rfl⟩ | ⟨-, hzero, he, -⟩ | ⟨-, i, -, hexec⟩ := step_cases h
  · exact .inl hceil
  · exact absurd ⟨by simp [haltedState], by simp [haltedState]⟩ herror
  · exact .inr ⟨hzero, he⟩
  · obtain ⟨-, -, hsame, -⟩ := exec_untouched hexec
    rw [tick_run, hrun] at hsame
    exact absurd ⟨by simp [hsame], by simp [hsame]⟩ herror

/-- Settles O46: a halting cycle leaves the pc and the instruction map, so the report reads the offending word off
them. -/
theorem decodeErrorReport : Obligations.DecodeErrorReport := by
  refine ⟨fun s hrun hceil hzero ⟨e, hdec⟩ => ⟨_, _, step_decodeError hrun hceil hzero hdec, rfl, rfl, rfl⟩,
    fun s hhalted => ?_⟩
  rcases hhalted with h | h <;> rw [State.finalReport, h] <;> exact ⟨_, rfl, rfl, rfl⟩

end Sys2Proof.Proofs
end

section
/-! What a run keeps, what it counts and how it ends (10_state.md sections 4 and 5, 40_decode_control.md section 6). -/

namespace Sys2Proof.Proofs

open Sys2Proof.Machine Sys2Proof.Spec

/-! ### The instruction map and the counter -/

/-- No step changes the instruction map: neither a halt nor an instruction touches it (20_memory.md R66). -/
theorem step_imem {s t : State} (h : step s = .next t) : t.imem = s.imem := by
  obtain ⟨r, rfl⟩ | ⟨i, -, hexec⟩ := step_halts_or_executes h
  · rfl
  · exact (exec_untouched hexec).1

/-- Every step that answers counts one cycle. -/
theorem step_cycle {s t : State} (h : step s = .next t) : t.cycle = s.cycle + 1 := by
  obtain ⟨r, rfl⟩ | ⟨i, -, hexec⟩ := step_halts_or_executes h
  · rfl
  · exact (exec_untouched hexec).2.1

/-- A step leaves the core running or ends in one of the halts. -/
theorem step_run {s t : State} (h : step s = .next t) : t.run = .running ∨ ∃ r, t = haltedState s r := by
  obtain ⟨hrun, -⟩ := step_next h
  obtain hhalt | ⟨i, -, hexec⟩ := step_halts_or_executes h
  · exact .inr hhalt
  · exact .inl ((exec_untouched hexec).2.2.1.trans hrun)

theorem reaches_imem {s t : State} (h : Reaches s t) : t.imem = s.imem := by
  induction h with
  | refl => rfl
  | tail _ hstep ih => exact (step_imem hstep).trans ih

/-- Settles O41, by induction on the run; a fetch reads the instruction map only. -/
theorem instructionMapNeverChanges : Obligations.InstructionMapNeverChanges :=
  fun _ _ h => ⟨reaches_imem h, fun a => congrArg (·.fetch a) (reaches_imem h)⟩

/-- Settles O48, by induction on the number of steps. -/
theorem cycleCountsSteps : Obligations.CycleCountsSteps := by
  intro n
  induction n with
  | zero =>
    intro s t h
    cases h
    rfl
  | succ n ih =>
    intro s u h
    obtain ⟨t, hstep, hrest⟩ := runFor_succ_inv h
    rw [ih t u hrest, step_cycle hstep]
    omega

/-! ### Every run ends -/

/-- One step halts the core past the ceiling; below it, each step that does not halt leaves one step fewer to go. -/
theorem runFor_halts (k : Nat) (s : State) (hrun : s.run = .running) (hk : 5003 - s.cycle ≤ k) :
    ∃ n t, n ≤ max 1 (5003 - s.cycle) ∧ runFor n s = .next t ∧ ∃ r, t.run = .halted r := by
  have hslack := Config.ceilingSlack.isLt
  induction k generalizing s with
  | zero =>
    have hceil : ¬ BelowCeiling s := by
      unfold BelowCeiling Config.cycleCeiling
      omega
    exact ⟨1, _, Nat.le_max_left .., runFor_succ (step_cycleLimit hrun hceil), _, rfl⟩
  | succ k ih =>
    obtain ⟨t, hstep⟩ := step_total hrun
    obtain hgoes | ⟨r, rfl⟩ := step_run hstep
    · have hcycle := step_cycle hstep
      have hceil : BelowCeiling s := by
        by_contra hceil
        rw [step_cycleLimit hrun hceil] at hstep
        cases hstep
        cases hgoes
      unfold BelowCeiling Config.cycleCeiling at hceil
      obtain ⟨n, u, hn, hfor, hhalted⟩ := ih t hgoes (by omega)
      exact ⟨n + 1, u, by omega, (runFor_succ hstep).trans hfor, hhalted⟩
    · exact ⟨1, _, Nat.le_max_left .., runFor_succ hstep, r, rfl⟩

/-- Settles O49, by induction on the steps the ceiling leaves. -/
theorem everyRunEnds : Obligations.EveryRunEnds :=
  fun s hrun => runFor_halts _ s hrun (Nat.le_refl _)

theorem reaches_head {s t u : State} (hstep : step s = .next t) (h : Reaches t u) : Reaches s u := by
  induction h with
  | refl => exact .tail (.refl s) hstep
  | tail _ hlast ih => exact .tail ih hlast

theorem reaches_of_runFor {n : Nat} {s t : State} (h : runFor n s = .next t) : Reaches s t := by
  induction n generalizing s with
  | zero =>
    cases h
    exact .refl _
  | succ n ih =>
    obtain ⟨u, hstep, hrest⟩ := runFor_succ_inv h
    exact reaches_head hstep (ih hrest)

/-- Settles O50: the run ends, and of the three halts a safe run excludes two. -/
theorem safeRunsEndNormally : Obligations.SafeRunsEndNormally := by
  intro s hrun hsafe
  obtain ⟨n, t, hn, hfor, r, hr⟩ := everyRunEnds s hrun
  obtain ⟨hdecode, hlimit⟩ := hsafe t (reaches_of_runFor hfor)
  refine ⟨n, t, by omega, hfor, ?_⟩
  cases r with
  | normal => exact hr
  | decodeError => exact absurd hr hdecode
  | cycleLimit => exact absurd hr hlimit

/-! ### The invariant -/

theorem getLsbD_zero_add_of_even {a b : Word} (ha : a.getLsbD 0 = false) (hb : b.getLsbD 0 = false) :
    (a + b).getLsbD 0 = false := by
  rw [BitVec.getLsbD_add (by decide), ha, hb, BitVec.carry_zero]
  rfl

/-- An instruction that has an encoding goes from an even pc to an even pc: its offset is even, or bit 0 of its target is
cleared, or it goes on in sequence (10_state.md R26). -/
theorem exec_pcEven {i : Instr} {s t : State} (hwf : i.wf = true) (h : exec i s = .next t)
    (heven : s.pc.getLsbD 0 = false) : t.pc.getLsbD 0 = false := by
  have hseq : s.pcSeq.getLsbD 0 = false := getLsbD_zero_add_of_even heven rfl
  cases i <;> cases h
  case jal rd off =>
    refine getLsbD_zero_add_of_even heven ?_
    rw [imm21, getLsbD_signExtend_min _ (by decide)]
    simpa [Instr.wf] using hwf
  case jalr rd rs1 imm =>
    exact (BitVec.getLsbD_and ..).trans (Bool.and_false _)
  case beq rs1 rs2 off | bne rs1 rs2 off | blt rs1 rs2 off | bge rs1 rs2 off =>
    have htaken : (s.branchTarget off).getLsbD 0 = false := by
      refine getLsbD_zero_add_of_even heven ?_
      rw [imm13, getLsbD_signExtend_min _ (by decide)]
      simpa [Instr.wf] using hwf
    rw [State.branch, goto_pc]
    split
    · exact htaken
    · exact hseq
  all_goals exact hseq

/-- A halting cycle of a running core keeps the invariant: it counts one cycle past the bound of a running core. -/
theorem inv_haltedState {s : State} (hinv : s.Inv) (hrun : s.run = .running) (r : HaltReason) :
    (haltedState s r).Inv where
  memWf := hinv.memWf
  imemWf := hinv.imemWf
  zeroCell := hinv.zeroCell
  pcEven := hinv.pcEven
  cycleBound := Nat.succ_le_succ (hinv.runningBound hrun)
  runningBound := nofun

/-- Below the ceiling an instruction that has an encoding keeps the invariant. -/
theorem inv_exec {i : Instr} {s t : State} (hinv : s.Inv) (hceil : BelowCeiling s) (hwf : i.wf = true)
    (h : exec i s.tick = .next t) : t.Inv := by
  obtain ⟨himem, hcycle, -, hcell⟩ := exec_untouched h
  have hbound : t.cycle ≤ Config.cycleCeiling + Config.ceilingSlack.val := hcycle ▸ hceil
  exact
    { memWf := exec_memWf h hinv.memWf
      imemWf := himem ▸ hinv.imemWf
      zeroCell := hcell.trans hinv.zeroCell
      pcEven := exec_pcEven hwf h hinv.pcEven
      cycleBound := Nat.le_succ_of_le hbound
      runningBound := fun _ => hbound }

/-- Settles O51: a step halts, or executes an instruction that was decoded and so has an encoding. -/
theorem stepKeepsInv : Obligations.StepKeepsInv := by
  intro s t hinv h
  obtain ⟨hrun, -⟩ := step_next h
  obtain ⟨-, rfl⟩ | ⟨-, rfl⟩ | ⟨-, -, -, rfl⟩ | ⟨hceil, i, hdec, hexec⟩ := step_cases h
  case inr.inr.inr => exact inv_exec hinv hceil (wf_of_decode hdec) hexec
  all_goals exact inv_haltedState hinv hrun _

/-- Reset with any two memories in canonical form has the invariant. -/
theorem inv_reset_with {imem : InstrMap} {mem : Memory} (himem : imem.wf) (hmem : mem.wf) :
    { State.reset with imem := imem, mem := mem }.Inv where
  memWf := hmem
  imemWf := himem
  zeroCell := rfl
  pcEven := show Config.pcReset.getLsbD 0 = false by decide
  cycleBound := Nat.zero_le _
  runningBound _ := Nat.zero_le _

/-- A listing boots to reset with the memories that the loader leaves. -/
theorem boot_eq_some {ls : List Line} {s : State} :
    State.boot ls = some s ↔
      ∃ l, Loader.start.lines ls = some l ∧ { State.reset with imem := l.imem, mem := l.mem } = s :=
  Option.map_eq_some_iff

theorem wf_nil_memory : Memory.wf [] := ⟨.nil, nofun⟩

theorem wf_nil_instrMap : InstrMap.wf [] := ⟨.nil, nofun⟩

/-- Settles O52: the loader starts from empty memories and every line keeps the canonical forms. -/
theorem bootStatesHaveInv : Obligations.BootStatesHaveInv := by
  refine ⟨inv_reset_with wf_nil_instrMap wf_nil_memory, fun ls s h => ?_⟩
  obtain ⟨l, hl, rfl⟩ := boot_eq_some.mp h
  obtain ⟨hmem, himem⟩ := wf_loaderLines ⟨wf_nil_memory, wf_nil_instrMap⟩ hl
  exact inv_reset_with himem hmem

end Sys2Proof.Proofs
end

section
/-! Results of register-register and immediate instructions (41_integer_register.md, 42_integer_immediate_upper.md,
43_muldiv.md), each as arithmetic on numbers or bit by bit. -/

namespace Sys2Proof.Proofs

open Sys2Proof.Machine Sys2Proof.Spec

/-! ### Shifts, comparison, logic -/

/-- The shift amount is the register modulo 32 (40_decode_control.md R136). -/
theorem shiftAmount_eq (v : Word) : shiftAmount v = v.toNat % 32 := by
  rw [shiftAmount, BitVec.extractLsb'_toNat, Nat.shiftRight_zero]

/-- Settles O19: a left shift multiplies, a right shift divides; of a signed value that division rounds down. -/
theorem shiftsUseAmountModulo32 : Obligations.ShiftsUseAmountModulo32 := by
  refine fun rd rs1 rs2 s => ⟨yields_of_writeResult rfl ?_, yields_of_writeResult rfl ?_, yields_of_writeResult rfl ?_⟩
  · rw [BitVec.toNat_shiftLeft, Nat.shiftLeft_eq, shiftAmount_eq]
  · rw [BitVec.toNat_ushiftRight, Nat.shiftRight_eq_div_pow, shiftAmount_eq]
  · rw [BitVec.toInt_sshiftRight, Int.shiftRight_eq_div_pow, shiftAmount_eq]
    rfl

theorem condLt_iff (a b : Word) : condLt a b = true ↔ a.toInt < b.toInt := decide_eq_true_iff

theorem condGe_iff (a b : Word) : condGe a b = true ↔ b.toInt ≤ a.toInt := decide_eq_true_iff

/-- Settles O20: the result is chosen by the signed comparison. -/
theorem sltComparesSigned : Obligations.SltComparesSigned := by
  refine fun rd rs1 rs2 s => yields_of_writeResult rfl ⟨fun hlt => ?_, fun hge => ?_⟩
  · exact if_pos ((condLt_iff _ _).mpr hlt)
  · exact if_neg fun hlt => Int.not_lt.mpr hge ((condLt_iff _ _).mp hlt)

/-- Settles O21: the library's rule for one bit of each operation. -/
theorem logicIsBitwise : Obligations.LogicIsBitwise := fun _ _ _ _ =>
  ⟨yields_of_writeResult rfl fun _ => BitVec.getLsbD_xor, yields_of_writeResult rfl fun _ => BitVec.getLsbD_or,
    yields_of_writeResult rfl fun _ => BitVec.getLsbD_and⟩

/-! ### Immediates -/

/-- Settles O22: the immediate as a number for the sum, and bit by bit for the logical members. -/
theorem immediateFormsSignExtend : Obligations.ImmediateFormsSignExtend := by
  refine fun rd rs1 imm s =>
    ⟨yields_of_writeResult rfl ?_, yields_of_writeResult rfl fun k hk => ?_, yields_of_writeResult rfl fun k hk => ?_⟩
  · rw [BitVec.toInt_add, imm12, BitVec.toInt_signExtend_of_le (by decide)]
  · rw [BitVec.getLsbD_and, imm12, getLsbD_signExtend_min _ hk]
  · rw [BitVec.getLsbD_or, imm12, getLsbD_signExtend_min _ hk]

theorem toNat_immUpper (imm : BitVec 20) : (immUpper imm).toNat = imm.toNat * 2 ^ 12 := by
  rw [immUpper, BitVec.toNat_append, BitVec.toNat_ofNat, Nat.zero_mod, Nat.or_zero, Nat.shiftLeft_eq]

/-- Settles O23: the upper immediate is its field times 2^12. -/
theorem upperImmediatesShiftBy12 : Obligations.UpperImmediatesShiftBy12 := by
  refine fun rd imm s => ⟨yields_of_writeResult rfl (toNat_immUpper imm), yields_of_writeResult rfl ?_⟩
  rw [BitVec.toNat_add, toNat_immUpper]

/-! ### Multiply, divide, remainder -/

/-- Settles O24: the low word of the product, read unsigned and signed. -/
theorem mulWritesLowProduct : Obligations.MulWritesLowProduct := fun _ _ _ _ =>
  yields_of_writeResult rfl ⟨BitVec.toNat_mul .., BitVec.toInt_mul ..⟩

/-- The library's signed quotient is the truncated quotient of the numbers, modulo 2^32. -/
theorem ofInt_tdiv (a b : Word) : BitVec.ofInt 32 (a.toInt.tdiv b.toInt) = a.sdiv b := by
  rw [← BitVec.toInt_inj, BitVec.toInt_ofInt, BitVec.toInt_sdiv]

/-- The library's signed remainder is the remainder of that quotient, modulo 2^32. -/
theorem ofInt_tmod (a b : Word) : BitVec.ofInt 32 (a.toInt.tmod b.toInt) = a.srem b := by
  rw [← BitVec.toInt_srem, BitVec.ofInt_toInt]

/-- DIV writes the library's signed quotient: its cases of a zero divisor and of overflow are that quotient's own
values (R192). -/
theorem signedQuotient_eq_sdiv (a b : Word) : signedQuotient a b = a.sdiv b := by
  unfold signedQuotient
  split
  next hb =>
    rw [hb]
    exact BitVec.sdiv_zero.symm
  next =>
    rw [← ofInt_tdiv]
    split
    next h =>
      obtain ⟨ha, hb⟩ := h
      rw [ha, hb]
      rfl
    next => rfl

/-- REM writes the library's signed remainder but for a zero divisor (R193). -/
theorem signedRemainder_eq_srem {a b : Word} (hb : b ≠ 0) : signedRemainder a b = a.srem b := by
  rw [signedRemainder, if_neg hb, ← ofInt_tmod, Int.tmod_def]
  split
  next h =>
    obtain ⟨ha, hb⟩ := h
    rw [ha, hb]
    rfl
  next => rfl

theorem signedRemainder_zero (a : Word) : signedRemainder a 0 = 0 := if_pos rfl

theorem toInt_eq_zero_iff (b : Word) : b.toInt = 0 ↔ b = 0 := by
  rw [← BitVec.toInt_inj]
  rfl

/-- Settles O25: the library's quotient of zero and of the overflow pair, and its number everywhere else. -/
theorem divRoundsTowardZero : Obligations.DivRoundsTowardZero := by
  refine fun rd rs1 rs2 s => yields_of_writeResult rfl ?_
  rw [signedQuotient_eq_sdiv]
  refine ⟨fun hb => ?_, fun ⟨ha, hb⟩ => ?_, fun _ hno => ?_⟩
  · rw [(toInt_eq_zero_iff _).mp hb]
    exact BitVec.sdiv_zero
  · rw [← ofInt_tdiv, ha, hb]
    rfl
  · refine BitVec.toInt_sdiv_of_ne_or_ne _ _ ?_
    rw [← not_and_or, ← BitVec.toInt_inj, ← BitVec.toInt_inj]
    exact hno

/-- A truncated remainder is zero or has the sign of the dividend. -/
theorem tmod_mul_self_nonneg (a b : Int) : 0 ≤ a.tmod b * a := by
  obtain ha | ha := Int.le_total 0 a
  · exact Int.mul_nonneg (Int.tmod_nonneg b ha) ha
  · have hneg := Int.tmod_nonneg b (Int.neg_nonneg_of_nonpos ha)
    rw [Int.neg_tmod] at hneg
    exact Int.mul_nonneg_of_nonpos_of_nonpos (Int.nonpos_of_neg_nonneg hneg) ha

/-- Settles O26: the remainder is the truncated one, whose size is below the divisor's and whose sign is the
dividend's. -/
theorem remHasSignOfDividend : Obligations.RemHasSignOfDividend := by
  refine fun rd rs1 rs2 s => yields_of_writeResult rfl ⟨fun hb => ?_, fun hb => ?_⟩
  · rw [(toInt_eq_zero_iff _).mp hb]
    exact signedRemainder_zero _
  · rw [signedRemainder_eq_srem fun h => hb ((toInt_eq_zero_iff _).mpr h), BitVec.toInt_srem]
    refine ⟨rfl, ?_, tmod_mul_self_nonneg _ _⟩
    rw [Int.natAbs_tmod]
    exact Nat.mod_lt _ (Int.natAbs_pos.mpr hb)

/-- Division and remainder as words, from the identity of truncated division on numbers. -/
theorem eq_mul_sdiv_add_srem (a b : Word) : a = b * a.sdiv b + a.srem b := by
  conv_lhs => rw [← BitVec.ofInt_toInt (x := a), ← Int.mul_tdiv_add_tmod a.toInt b.toInt, BitVec.ofInt_add,
    BitVec.ofInt_mul, BitVec.ofInt_toInt, ofInt_tdiv, ofInt_tmod]

/-- A register other than x0 reads what was written back to it. -/
theorem writeBack_reg_same {rd : Reg} (hrd : rd ≠ 0) (s : State) (v a : Word) : (s.writeBack rd v a).reg rd = v := by
  rw [writeBack_reg, if_pos ⟨rfl, hrd⟩]

/-- Settles O27: both results are the library's, which satisfy the identity; with a zero divisor both are zero. -/
theorem divRemIdentity : Obligations.DivRemIdentity := by
  refine fun rd rs1 rs2 s hrd => ⟨_, _, rfl, rfl, ?_⟩
  rw [writeBack_reg_same hrd, writeBack_reg_same hrd]
  refine ⟨fun hb => ?_, fun hb => ?_⟩
  · rw [signedQuotient_eq_sdiv, signedRemainder_eq_srem hb]
    exact eq_mul_sdiv_add_srem _ _
  · rw [hb, signedRemainder_zero, signedQuotient_eq_sdiv]
    exact ⟨BitVec.sdiv_zero, rfl⟩

end Sys2Proof.Proofs
end

section
/-! Addresses, and control transfer (20_memory.md R52, 44_control_transfer.md): sums modulo 2^32, JALR's cleared bit, the
two ends of a branch, and the next pc of every instruction. -/

namespace Sys2Proof.Proofs

open Sys2Proof.Machine Sys2Proof.Spec

/-! ### Sums modulo 2^32 -/

/-- A word and a signed number written as a word add up modulo 2^32. -/
theorem isAddr_add_ofInt (base : Word) (d : Int) : IsAddr (base + BitVec.ofInt 32 d) base d := by
  have hsum : base + BitVec.ofInt 32 d = BitVec.ofInt 32 (base.toNat + d) := by
    rw [BitVec.ofInt_add, BitVec.ofInt_natCast, BitVec.ofNat_toNat, BitVec.setWidth_eq]
  rw [IsAddr, hsum, BitVec.toNat_ofInt, Int.toNat_of_nonneg (Int.emod_nonneg _ (by decide))]
  rfl

section
variable (s : State)

theorem isAddr_effectiveAddress (rs1 : Reg) (imm : BitVec 12) :
    IsAddr (s.effectiveAddress rs1 imm) (s.reg rs1) imm.toInt := isAddr_add_ofInt _ _

theorem isAddr_branchTarget (off : BitVec 13) : IsAddr (s.branchTarget off) s.pc off.toInt := isAddr_add_ofInt _ _

theorem isAddr_jalTarget (off : BitVec 21) : IsAddr (s.jalTarget off) s.pc off.toInt := isAddr_add_ofInt _ _

theorem isAddr_pcSeq : IsAddr s.pcSeq s.pc 4 := isAddr_add_ofInt s.pc 4

end

/-- Clearing bit 0 rounds down to an even number. -/
theorem toNat_clearBitZero (x : Word) : (x &&& 0xFFFFFFFE).toNat = x.toNat / 2 * 2 := by
  have hshift : x &&& (0xFFFFFFFE : Word) = (x >>> 1) <<< 1 := by
    apply BitVec.eq_of_getLsbD_eq
    intro k hk
    interval_cases k <;> simp
  rw [hshift, BitVec.toNat_shiftLeft, BitVec.toNat_ushiftRight, Nat.shiftLeft_eq, Nat.shiftRight_eq_div_pow]
  omega

theorem toNat_jalrTarget (s : State) (rs1 : Reg) (imm : BitVec 12) :
    (s.jalrTarget rs1 imm).toNat = (s.effectiveAddress rs1 imm).toNat / 2 * 2 := toNat_clearBitZero _

/-- Settles O15: each address adds a sign-extended field to a word, and JALR rounds its sum down to even. -/
theorem addressSumsWrap : Obligations.AddressSumsWrap := fun s rs1 imm off13 off21 =>
  ⟨isAddr_effectiveAddress s rs1 imm, isAddr_branchTarget s off13, isAddr_jalTarget s off21, _,
    isAddr_effectiveAddress s rs1 imm, toNat_jalrTarget s rs1 imm⟩

/-! ### Jumps -/

/-- Settles O28: the write-back of the link value, and the target as a sum from the JAL's own pc. -/
theorem jalLinksAndJumps : Obligations.JalLinksAndJumps := fun rd offset s =>
  ⟨_, rfl, writesReg_writeBack s rd s.pcSeq (s.jalTarget offset), isAddr_jalTarget s offset⟩

/-- Settles O29: the write-back of the link value, and the target from the old rs1 rounded down to even. -/
theorem jalrClearsBitZero : Obligations.JalrClearsBitZero := fun rd rs1 imm s =>
  ⟨_, rfl, writesReg_writeBack s rd s.pcSeq (s.jalrTarget rs1 imm), (BitVec.getLsbD_and ..).trans (Bool.and_false _), _,
    isAddr_effectiveAddress s rs1 imm, toNat_jalrTarget s rs1 imm⟩

/-! ### Branches -/

theorem onlyMovesPc_goto (s : State) (a : Word) : OnlyMovesPc s (s.goto a) :=
  ⟨fun _ => rfl, fun _ => rfl, rfl, rfl, rfl⟩

/-- Both ends of a branch whose condition decides `p`. -/
theorem branch_pc {taken : Bool} {p : Prop} (h : taken = true ↔ p) (s : State) (off : BitVec 13) :
    (p → IsAddr (s.branch taken off).pc s.pc off.toInt) ∧ (¬p → (s.branch taken off).pc = s.pcSeq) := by
  rw [State.branch, goto_pc]
  refine ⟨fun hp => ?_, fun hp => if_neg fun ht => hp (h.mp ht)⟩
  rw [if_pos (h.mpr hp)]
  exact isAddr_branchTarget s off

/-- A branch with a condition that decides `p` completes, moves the pc only, and goes where `p` says. -/
theorem yields_of_branch {i : Instr} {s : State} {taken : Bool} {off : BitVec 13} {p q : Prop}
    (hexec : exec i s = .next (s.branch taken off)) (h : taken = true ↔ p) (hq : q → ¬p) :
    Yields i s fun t => OnlyMovesPc s t ∧ (p → IsAddr t.pc s.pc off.toInt) ∧ (q → t.pc = s.pc + 4) :=
  ⟨_, hexec, onlyMovesPc_goto s _, (branch_pc h s off).1, fun hp => (branch_pc h s off).2 (hq hp)⟩

theorem condEq_iff (a b : Word) : condEq a b = true ↔ a = b := beq_iff_eq

theorem condNe_iff (a b : Word) : condNe a b = true ↔ a ≠ b := bne_iff_ne

/-- Settles O30: equality of all 32 bits decides both branches. -/
theorem equalityBranches : Obligations.EqualityBranches := fun _ _ _ _ =>
  ⟨yields_of_branch rfl (condEq_iff _ _) id, yields_of_branch rfl (condNe_iff _ _) not_not_intro⟩

/-- Settles O31: the signed order decides both branches, each where the other is not taken. -/
theorem signedBranches : Obligations.SignedBranches := fun _ _ _ _ =>
  ⟨yields_of_branch rfl (condLt_iff _ _) Int.not_lt.mpr, yields_of_branch rfl (condGe_iff _ _) Int.not_le.mpr⟩

/-! ### The next pc of every instruction (40_decode_control.md R138) -/

/-- The next pc of a branch as a choice of one of two sums. -/
theorem isAddr_branch {taken : Bool} {p : Prop} [Decidable p] (h : taken = true ↔ p) (s : State) (off : BitVec 13) :
    if p then IsAddr (s.branch taken off).pc s.pc off.toInt else IsAddr (s.branch taken off).pc s.pc 4 := by
  obtain ⟨htaken, hseq⟩ := branch_pc h s off
  split
  next hp => exact htaken hp
  next hp => exact hseq hp ▸ isAddr_pcSeq s

/-- Settles O32: by cases on the instruction; the jumps and branches as above, every other goes on in sequence. -/
theorem nextPcRule : Obligations.NextPcRule := by
  intro i s
  cases i
  case jal rd off => exact ⟨_, rfl, isAddr_jalTarget s off, fun hrd => writeBack_reg_same hrd s _ _⟩
  case jalr rd rs1 imm =>
    exact ⟨_, rfl, ⟨_, isAddr_effectiveAddress s rs1 imm, rfl⟩, fun hrd => writeBack_reg_same hrd s _ _⟩
  case beq => exact ⟨_, rfl, isAddr_branch (condEq_iff _ _) s _⟩
  case bne => exact ⟨_, rfl, isAddr_branch (condNe_iff _ _) s _⟩
  case blt => exact ⟨_, rfl, isAddr_branch (condLt_iff _ _) s _⟩
  case bge => exact ⟨_, rfl, isAddr_branch (condGe_iff _ _) s _⟩
  all_goals exact ⟨_, rfl, isAddr_pcSeq s⟩

end Sys2Proof.Proofs
end

section
/-! Loads and stores (45_load_store.md): the number a load gives from its bytes, the whole effect of a store, and a load
after a store at one address. -/

namespace Sys2Proof.Proofs

open Sys2Proof.Machine Sys2Proof.Spec

/-! ### Loads -/

theorem toInt_cast {w v : Nat} (h : w = v) (x : BitVec w) : (x.cast h).toInt = x.toInt := by
  subst h
  rfl

/-- `MemRead` of one byte more puts that byte above the lower ones, also as a signed number. -/
theorem toInt_load_succ (m : Memory) (a : Word) {n : Nat} :
    (m.load a (n + 1)).toInt = (m.byteAt (a + BitVec.ofNat 32 n)).toInt * 256 ^ n + (m.load a n).toNat := by
  have hpow : (2 : Int) ^ (8 * n) = 256 ^ n := pow_mul 2 8 n
  rw [Memory.load, toInt_cast, BitVec.toInt_append, if_neg (by decide), hpow, Int.mul_comm]

/-- A read of no byte is zero. -/
theorem toNat_load_zero (m : Memory) (a : Word) : (m.load a 0).toNat = 0 := rfl

/-- A shorter read gives the low bytes of a longer one. -/
theorem load_eq_setWidth_load {n k : Nat} (m : Memory) (a : Word) (h : n ≤ k) :
    m.load a n = (m.load a k).setWidth (8 * n) :=
  load_eq_setWidth fun i hi => (byte_of_load m a k i (Nat.lt_of_lt_of_le hi h)).symm

theorem loadWord_eq (m : Memory) (ea : Word) : m.loadWord ea = m.load ea 4 := BitVec.extractLsb'_eq_self

/-- LD keeps the low word of its eight bytes, which is what LW reads (R229, D7). -/
theorem loadDouble_eq_loadWord (m : Memory) (ea : Word) : m.loadDouble ea = m.loadWord ea := by
  rw [loadWord_eq, load_eq_setWidth_load m ea (by decide : 4 ≤ 8), Memory.loadDouble,
    BitVec.setWidth_eq_extractLsb' (by decide)]

/-- Settles O33: sign extension keeps the signed number, whose top byte alone is read signed. -/
theorem narrowLoadsSignExtend : Obligations.NarrowLoadsSignExtend := by
  refine fun rd rs1 imm s => ⟨yields_of_writeResult rfl ?_, yields_of_writeResult rfl ?_⟩
  · rw [Memory.loadByte, BitVec.toInt_signExtend_of_le (by decide), toInt_load_succ, toNat_load_zero]
    simp
  · rw [Memory.loadHalf, BitVec.toInt_signExtend_of_le (by decide), toInt_load_succ, toNat_load_succ, toNat_load_zero]
    simp

/-- Settles O34: LW writes the number of its four bytes, and LD the same word. -/
theorem wordLoads : Obligations.WordLoads := by
  refine fun rd rs1 imm s => ⟨s.mem.loadWord (s.effectiveAddress rs1 imm), ?_,
    ⟨_, rfl, writesReg_writeBack s rd _ s.pcSeq⟩, ⟨_, rfl, ?_⟩⟩
  · rw [loadWord_eq, toNat_load_succ, toNat_load_succ, toNat_load_succ, toNat_load_succ, toNat_load_zero]
    simp
  · rw [loadDouble_eq_loadWord]
    exact writesReg_writeBack s rd _ s.pcSeq

/-! ### Stores -/

/-- The whole effect of the end of a storing cycle. -/
theorem storesBytes_storeBytes {w n : Nat} {byte : Nat → Byte} {v : BitVec w} (s : State) (ea : Word)
    (hn : n ≤ 2 ^ 32) (hbyte : ∀ i < n, v.extractLsb' (8 * i) 8 = byte i) :
    StoresBytes s (s.storeBytes ea n v) ea n byte := by
  refine ⟨fun i hi => ?_, fun a ha => ?_, fun r => rfl, rfl, rfl, rfl, rfl⟩
  · rw [storeBytes_mem, byteAt_store_inside s.mem ea v hn hi, hbyte i hi]
  · rw [storeBytes_mem, byteAt_store _ _ _ _ _ hn, if_neg (Nat.not_lt.mpr ha)]

/-- The bytes of a register's low n bytes are the register's low bytes. -/
theorem extractLsb'_byte_of_low {n i : Nat} (r : Word) (hi : i < n) :
    (r.extractLsb' 0 (8 * n)).extractLsb' (8 * i) 8 = r.extractLsb' (8 * i) 8 := by
  rw [BitVec.extractLsb'_extractLsb'_of_le (by omega)]

/-- Settles O35: the stored value is the register's low bytes, one of `StoreData`'s widths. -/
theorem storesWriteLowBytes : Obligations.StoresWriteLowBytes := fun _ rs2 _ s =>
  ⟨⟨_, rfl, storesBytes_storeBytes s _ (by decide) fun _ hi => extractLsb'_byte_of_low (s.reg rs2) hi⟩,
    ⟨_, rfl, storesBytes_storeBytes s _ (by decide) fun _ hi => extractLsb'_byte_of_low (s.reg rs2) hi⟩,
    ⟨_, rfl, storesBytes_storeBytes s _ (by decide) fun _ _ => rfl⟩⟩

/-- Settles O36: the bytes of `StoreData(DOUBLE, r)`. -/
theorem sdStoresEightBytes : Obligations.SdStoresEightBytes := fun _ rs2 _ s =>
  ⟨_, rfl, storesBytes_storeBytes s _ (by decide) fun i hi => storeDataDouble_byte (s.reg rs2) i hi⟩

/-- Settles O37: the four bytes read are the four bytes written. -/
theorem storeWordThenLoadWord : Obligations.StoreWordThenLoadWord := by
  intro rs1 rs2 rd base imm imm' s t hstore hrd hea
  cases hstore
  refine ⟨_, rfl, (writeBack_reg_same hrd _ _ _).trans ?_⟩
  rw [hea, storeBytes_mem, loadWord_eq,
    load_eq_setWidth fun i hi => byteAt_store_inside s.mem _ _ (by decide) hi]
  exact BitVec.setWidth_eq _

end Sys2Proof.Proofs
end

section
/-! What an instruction cannot see or change (10_state.md sections 2, 4 and 5, 20_memory.md sections 6 and 7,
30_encoding.md R101): x0 as destination, the memory outside its one access, the counter, the run state and the
instruction map; and the life of the run state. -/

namespace Sys2Proof.Proofs

open Sys2Proof.Machine Sys2Proof.Spec

/-! ### x0 as destination (R101) -/

theorem writeBack_zero (s : State) (v a : Word) : s.writeBack 0 v a = s.goto a := rfl

/-- A write-back changes the register cells and the pc only. -/
theorem writeBack_with_regs (s : State) (r : Reg) (v a : Word) : { s.writeBack r v a with regs := s.regs } = s.goto a := by
  unfold State.writeBack State.setReg
  split <;> rfl

/-- What an instruction writes back, and where it goes, does not depend on the register it names as destination. -/
theorem exec_withDestination {i : Instr} (hd : destination i ≠ none) (s : State) :
    ∃ v a, ∀ r, exec (withDestination r i) s = .next (s.writeBack r v a) := by
  cases i
  case beq | bne | blt | bge | sb | sh | sw | sd => exact absurd rfl hd
  all_goals exact ⟨_, _, fun r => rfl⟩

theorem destination_withDestination {i : Instr} (hd : destination i ≠ none) (r : Reg) :
    destination (withDestination r i) = some r := by
  cases i
  case beq | bne | blt | bge | sb | sh | sw | sd => exact absurd rfl hd
  all_goals rfl

/-- Settles O38: the write-back to x0 is the pc update alone, and what is written back is the same for every
destination. -/
theorem zeroDestinationDiscardsOnlyTheWrite : Obligations.ZeroDestinationDiscardsOnlyTheWrite := by
  refine ⟨fun s => rfl, fun i s t h hd => ?_, fun i r s hd => ?_⟩
  · obtain ⟨v, a, hexec⟩ := exec_of_destination hd s
    obtain rfl : s.writeBack 0 v a = t := Host.Outcome.next.inj (hexec.symm.trans h)
    exact ⟨rfl, rfl⟩
  · obtain ⟨v, a, hexec⟩ := exec_withDestination hd s
    refine ⟨destination_withDestination hd r, destination_withDestination hd 0, _, hexec r, ?_⟩
    rw [hexec 0, writeBack_with_regs, writeBack_zero]

/-! ### Memory outside the one access (20_memory.md R66, R71) -/

theorem writeBack_with_mem (s : State) (m : Memory) (r : Reg) (v a : Word) :
    { s with mem := m }.writeBack r v a = { s.writeBack r v a with mem := m } := by
  unfold State.writeBack State.setReg
  split <;> rfl

/-- The value a load writes back, from the `MemRead` of its access. -/
theorem exec_load {i : Instr} {s : State} {ea : Word} {n : Nat} (hload : loadAccess s i = some (ea, n)) :
    ∃ (rd : Reg) (value : BitVec (8 * n) → Word), ∀ m : Memory,
      exec i { s with mem := m } = .next ({ s with mem := m }.writeBack rd (value (m.load ea n)) s.pcSeq) := by
  cases i <;> cases hload
  case lb rd rs1 imm | lh rd rs1 imm => exact ⟨rd, fun v => v.signExtend 32, fun m => rfl⟩
  case lw rd rs1 imm | ld rd rs1 imm => exact ⟨rd, fun v => v.extractLsb' 0 32, fun m => rfl⟩

/-- An instruction that makes no access gives the same result over any memory. -/
theorem exec_with_mem {i : Instr} {s t : State} (m : Memory) (hload : loadAccess s i = none)
    (hstore : storeAccess s i = none) (h : exec i s = .next t) :
    t.mem = s.mem ∧ exec i { s with mem := m } = .next { t with mem := m } := by
  cases i
  case lb | lh | lw | ld => cases hload
  case sb | sh | sw | sd => cases hstore
  case beq | bne | blt | bge =>
    cases h
    exact ⟨rfl, rfl⟩
  all_goals
    cases h
    exact ⟨writeBack_mem .., congrArg _ (writeBack_with_mem ..)⟩

/-- A load gives the same result over any memory that agrees on the bytes of its access. -/
theorem exec_load_with_mem {i : Instr} {s t : State} {m : Memory} {ea : Word} {n : Nat}
    (hload : loadAccess s i = some (ea, n)) (h : exec i s = .next t)
    (hagree : ∀ k < n, m.byteAt (ea + BitVec.ofNat 32 k) = s.mem.byteAt (ea + BitVec.ofNat 32 k)) :
    t.mem = s.mem ∧ exec i { s with mem := m } = .next { t with mem := m } := by
  obtain ⟨rd, value, hexec⟩ := exec_load hload
  obtain rfl := Host.Outcome.next.inj ((hexec s.mem).symm.trans h)
  refine ⟨writeBack_mem .., ?_⟩
  rw [hexec m, load_congr hagree, writeBack_with_mem]

/-- A store ends in the `MemWrite` of its access, of a value that does not depend on memory. -/
theorem exec_store {i : Instr} {s : State} {ea : Word} {n : Nat} (hstore : storeAccess s i = some (ea, n)) :
    n ≤ 2 ^ 32 ∧ ∃ (w : Nat) (v : BitVec w), ∀ m : Memory,
      exec i { s with mem := m } = .next ({ s with mem := m }.storeBytes ea n v) := by
  cases i <;> cases hstore
  case sb rs1 rs2 imm => exact ⟨by decide, _, storeDataByte (s.reg rs2), fun m => rfl⟩
  case sh rs1 rs2 imm => exact ⟨by decide, _, storeDataHalf (s.reg rs2), fun m => rfl⟩
  case sw rs1 rs2 imm => exact ⟨by decide, _, storeDataWord (s.reg rs2), fun m => rfl⟩
  case sd rs1 rs2 imm => exact ⟨by decide, _, storeDataDouble (s.reg rs2), fun m => rfl⟩

/-- Settles O39: of the instructions that do not store, a load reads its access only and every other reads no memory; a
store writes its access only; and fetch reads the instruction map. -/
theorem oneAccessPerInstruction : Obligations.OneAccessPerInstruction := by
  refine ⟨fun i s t m h hstore hagree => ?_, fun i s t ea n h hstore => ?_, fun s m => rfl⟩
  · cases hload : loadAccess s i with
    | none => exact exec_with_mem m hload hstore h
    | some access => exact exec_load_with_mem hload h (hagree _ _ hload)
  · obtain ⟨hn, w, v, hexec⟩ := exec_store hstore
    obtain rfl := Host.Outcome.next.inj ((hexec s.mem).symm.trans h)
    obtain ⟨-, houtside, -⟩ := storesBytes_storeBytes (v := v) s ea hn fun _ _ => rfl
    exact ⟨houtside, fun m => ⟨_, hexec m⟩⟩

/-! ### The counter, the run state and the instruction map (10_state.md R27 to R29) -/

theorem writeBack_with_rest (s : State) (c : Nat) (r : RunState) (m : InstrMap) (rd : Reg) (v a : Word) :
    { s with cycle := c, run := r, imem := m }.writeBack rd v a =
      { s.writeBack rd v a with cycle := c, run := r, imem := m } := by
  unfold State.writeBack State.setReg
  split <;> rfl

/-- Settles O40: a branch and a store do not name these fields, and a write-back commutes with setting them. -/
theorem cycleRunAndImemAreInvisible : Obligations.CycleRunAndImemAreInvisible := by
  intro i s t c r m h
  cases i <;> cases h
  case beq | bne | blt | bge | sb | sh | sw | sd => rfl
  all_goals exact congrArg _ (writeBack_with_rest ..)

/-! ### The life of the run state (10_state.md R28) -/

/-- A halted core performs no cycle. -/
theorem step_of_halted {s : State} {r : HaltReason} (h : s.run = .halted r) : step s = .fault (.halted r) := by
  rw [step, h]

theorem eq_of_reaches_of_halted {s t : State} {r : HaltReason} (h : s.run = .halted r) (hreach : Reaches s t) :
    t = s := by
  induction hreach with
  | refl => rfl
  | tail _ hstep ih =>
    rw [ih, step_of_halted h] at hstep
    cases hstep

/-- Of a running core, a step goes on or ends in one of the three halts. -/
theorem step_run_or_halted {s t : State} (h : step s = .next t) :
    t.run = .running ∨ t = haltedState s .normal ∨ t = haltedState s .decodeError ∨ t = haltedState s .cycleLimit := by
  obtain hgoes | ⟨r, rfl⟩ := step_run h
  · exact .inl hgoes
  · cases r
    · exact .inr (.inl rfl)
    · exact .inr (.inr (.inl rfl))
    · exact .inr (.inr (.inr rfl))

/-- The report holds the registers in order. -/
theorem report_regs (s : State) (r : Reg) :
    ((List.range 32).map fun k => s.reg (BitVec.ofNat 5 k))[r.toNat]? = some (s.reg r) := by
  rw [List.getElem?_map, List.getElem?_range r.isLt, Option.map_some, BitVec.ofNat_toNat, BitVec.setWidth_eq]

/-- There is a report exactly of a halted core, and it shows the state as it is (70_reset_and_hazards.md R281). -/
theorem finalReport_spec (s : State) : (s.run = .running ↔ s.finalReport = none) ∧
    ∀ f, s.finalReport = some f → s.run = .halted f.reason ∧ f.mem = s.mem ∧ f.regs.length = 32 ∧
      ∀ r : Reg, f.regs[r.toNat]? = some (s.reg r) := by
  rw [State.finalReport]
  cases s.run with
  | running => exact ⟨⟨fun _ => rfl, fun _ => rfl⟩, nofun⟩
  | halted reason =>
    refine ⟨⟨nofun, nofun⟩, fun f hf => ?_⟩
    cases hf
    exact ⟨rfl, rfl, rfl, report_regs s⟩

/-- Settles O45: reset runs; a step of a running core and of a halted one; no instruction sees the run state; and the
report. -/
theorem runStateLifecycle : Obligations.RunStateLifecycle := by
  refine ⟨rfl, fun s hrun => ?_, fun s t r hhalted => ⟨step_of_halted hhalted, eq_of_reaches_of_halted hhalted⟩,
    fun i s t r h => ?_, finalReport_spec⟩
  · obtain ⟨t, hstep⟩ := step_total hrun
    exact ⟨t, hstep, step_run_or_halted hstep⟩
  · obtain ⟨himem, hcycle, hsame, -⟩ := exec_untouched h
    refine ⟨hsame, ?_⟩
    have hsetRun : { t with cycle := s.cycle, run := r, imem := s.imem } = { t with run := r } := by
      rw [← hcycle, ← himem]
    exact (cycleRunAndImemAreInvisible i s t s.cycle r s.imem h).trans (congrArg _ hsetRun)

end Sys2Proof.Proofs
end

section
/-! The control unit and the datapath (40_decode_control.md sections 3 and 4). -/

namespace Sys2Proof.Proofs

open Sys2Proof.Machine Sys2Proof.Spec

theorem signedQuotient_eq_aluDiv (a b : Word) : signedQuotient a b = aluDiv a b := by
  rw [signedQuotient_eq_sdiv, aluDiv]
  split
  next hb =>
    rw [hb]
    exact BitVec.sdiv_zero
  next => rfl

theorem signedRemainder_eq_aluRem (a b : Word) : signedRemainder a b = aluRem a b := by
  rw [aluRem]
  split
  next hb => rw [hb, signedRemainder_zero]
  next hb => exact signedRemainder_eq_srem hb

/-! What the datapath does under each shape of bundle (R137). -/

section
variable (junk : Word) (s : State) (rd rs1 rs2 : Reg) (imm : Word) (f3 : Option (BitVec 3)) (f7 : Option (BitVec 7))

theorem datapath_bundleReg (op : AluOp) :
    datapath junk (bundleReg op) ⟨some rd, some rs1, some rs2, f3, f7, none⟩ s =
      s.writeBack rd (alu op (s.reg rs1) (s.reg rs2) junk).1 s.pcSeq := by
  simp [datapath, bundleReg, State.writeBack, State.pcSeq]

theorem datapath_bundleImm (op : AluOp) :
    datapath junk (bundleImm op) ⟨some rd, some rs1, none, f3, f7, some imm⟩ s =
      s.writeBack rd (alu op (s.reg rs1) imm junk).1 s.pcSeq := by
  simp [datapath, bundleImm, State.writeBack, State.pcSeq]

theorem datapath_bundleLoad (width : MemWidth) :
    datapath junk (bundleLoad width) ⟨some rd, some rs1, none, f3, f7, some imm⟩ s =
      s.writeBack rd (readMemory width s.mem (s.reg rs1 + imm)) s.pcSeq := by
  simp [datapath, bundleLoad, alu, State.writeBack, State.pcSeq]

theorem datapath_bundleStore (width : MemWidth) :
    datapath junk (bundleStore width) ⟨none, some rs1, some rs2, f3, f7, some imm⟩ s =
      { s with mem := writeMemory width s.mem (s.reg rs1 + imm) (s.reg rs2), pc := s.pcSeq } := by
  simp [datapath, bundleStore, alu, State.goto, State.pcSeq]

theorem datapath_bundleBranch {op : AluOp} (hop : op ≠ .jalr) :
    datapath junk (bundleBranch op) ⟨none, some rs1, some rs2, f3, f7, some imm⟩ s =
      s.goto (if (alu op (s.reg rs1) (s.reg rs2) junk).2 then s.pc + imm else s.pcSeq) := by
  simp [datapath, bundleBranch, hop, State.pcSeq]

end

/-- Settles O53: by the shape of the instruction's bundle; what is left is the operation of each tag, where the two
descriptions of division differ in form. -/
theorem datapathAgreesWithExec : Obligations.DatapathAgreesWithExec := by
  intro junk i s
  cases i
  case add | sub | sll | slt | xor | srl | sra | or | and | mul =>
    simp only [controlOf, fieldsOf, Instr.operands, datapath_bundleReg]
    rfl
  case div rd rs1 rs2 =>
    simp only [controlOf, fieldsOf, Instr.operands, datapath_bundleReg]
    exact congrArg (s.writeResult rd) (signedQuotient_eq_aluDiv (s.reg rs1) (s.reg rs2))
  case rem rd rs1 rs2 =>
    simp only [controlOf, fieldsOf, Instr.operands, datapath_bundleReg]
    exact congrArg (s.writeResult rd) (signedRemainder_eq_aluRem (s.reg rs1) (s.reg rs2))
  case addi | andi | ori =>
    simp only [controlOf, fieldsOf, Instr.operands, datapath_bundleImm]
    rfl
  case lb | lh | lw | ld =>
    simp only [controlOf, fieldsOf, Instr.operands, datapath_bundleLoad]
    rfl
  case sb | sh | sw | sd =>
    simp only [controlOf, fieldsOf, Instr.operands, datapath_bundleStore]
    rfl
  case beq | bne | blt | bge =>
    simp only [controlOf, fieldsOf, Instr.operands, datapath_bundleBranch, ne_eq, reduceCtorEq, not_false_eq_true]
    rfl
  case jalr =>
    simp [datapath, controlOf, fieldsOf, Instr.operands, alu, exec, execJalr, State.jalrTarget, State.pcSeq,
      State.writeBack]
  case lui | auipc | jal => rfl

/-- The three ways an instruction uses data memory: no access, a read, or a write; an access has a width. -/
theorem controlOf_memory (i : Instr) :
    ((controlOf i).memRead = false ∧ (controlOf i).memWrite = false ∧ (controlOf i).memWidth = none) ∨
    (∃ w, (controlOf i).memRead = true ∧ (controlOf i).memWrite = false ∧ (controlOf i).memWidth = some w) ∨
    (∃ w, (controlOf i).memRead = false ∧ (controlOf i).memWrite = true ∧ (controlOf i).memWidth = some w) := by
  cases i
  case lb | lh | lw | ld => exact .inr (.inl ⟨_, rfl, rfl, rfl⟩)
  case sb | sh | sw | sd => exact .inr (.inr ⟨_, rfl, rfl, rfl⟩)
  all_goals exact .inl ⟨rfl, rfl, rfl⟩

theorem controlOf_regWrite (i : Instr) : (controlOf i).regWrite = (destination i).isSome := by cases i <;> rfl

theorem controlOf_aluOp (i : Instr) : (controlOf i).aluOp = i.row.tag := by cases i <;> rfl

theorem fieldsOf_rd (i : Instr) : (fieldsOf i).rd = destination i := by cases i <;> rfl

/-- Settles O54: the memory clauses for each use of memory, the others instruction by instruction. -/
theorem controlBundleIsConsistent : Obligations.ControlBundleIsConsistent := by
  intro i
  rw [controlOf_regWrite, controlOf_aluOp, fieldsOf_rd, ControlBundle.maSel]
  obtain ⟨hr, hw, hwidth⟩ | ⟨w, hr, hw, hwidth⟩ | ⟨w, hr, hw, hwidth⟩ := controlOf_memory i <;>
    simp [hr, hw, hwidth]

end Sys2Proof.Proofs
end

section
/-! The canonical forms (log 4, log 5): a table with rising keys is determined by what it lists. -/

namespace Sys2Proof.Proofs

open Sys2Proof.Machine Sys2Proof.Spec

/-- In a table with rising keys the entries are exactly what a lookup finds. -/
theorem mem_iff_lookup {α : Type} {m : List (Nat × α)} (hm : m.Pairwise fun c d => c.1 < d.1) {k : Nat} {v : α} :
    (k, v) ∈ m ↔ Table.lookup m k = some v := by
  induction m with
  | nil => simp [Table.lookup]
  | cons c m ih =>
    obtain ⟨j, w⟩ := c
    obtain ⟨hfirst, hrest⟩ := List.pairwise_cons.mp hm
    by_cases hkj : k = j
    · subst hkj
      have hnot : (k, v) ∉ m := fun hmem => Nat.lt_irrefl k (hfirst _ hmem)
      simp [Table.lookup, hnot, eq_comm]
    · simp [Table.lookup, hkj, ih hrest]

theorem nodup_of_rising {α : Type} {m : List (Nat × α)} (hm : m.Pairwise fun c d => c.1 < d.1) : m.Nodup :=
  List.Pairwise.imp (fun hlt => ne_of_apply_ne Prod.fst (Nat.ne_of_lt hlt)) hm

/-- Two tables with rising keys that list the same under every key are the same. -/
theorem table_ext {α : Type} {m m' : List (Nat × α)} (hm : m.Pairwise fun c d => c.1 < d.1)
    (hm' : m'.Pairwise fun c d => c.1 < d.1) (h : ∀ k, Table.lookup m k = Table.lookup m' k) : m = m' := by
  have hperm : m.Perm m' := by
    refine (List.perm_ext_iff_of_nodup (nodup_of_rising hm) (nodup_of_rising hm')).mpr fun c => ?_
    rw [← Prod.mk.eta (p := c), mem_iff_lookup hm, mem_iff_lookup hm', h]
  exact hperm.eq_of_pairwise (fun c d _ _ hlt hgt => absurd (Nat.lt_trans hlt hgt) (Nat.lt_irrefl _)) hm hm'

/-- A key outside the address space is not listed. -/
theorem lookup_of_outside {α : Type} {m : List (Nat × α)} {k : Nat} (hm : ∀ c ∈ m, c.1 < 2 ^ 32) (hk : ¬ k < 2 ^ 32) :
    Table.lookup m k = none :=
  lookup_eq_none fun c hc heq => hk (heq ▸ hm c hc)

/-- Tables over the address space that list the same at every address list the same under every key. -/
theorem lookup_eq_of_words {α : Type} {m m' : List (Nat × α)} (hm : ∀ c ∈ m, c.1 < 2 ^ 32)
    (hm' : ∀ c ∈ m', c.1 < 2 ^ 32) (h : ∀ a : Word, Table.lookup m a.toNat = Table.lookup m' a.toNat) (k : Nat) :
    Table.lookup m k = Table.lookup m' k := by
  by_cases hk : k < 2 ^ 32
  · have hat := h (BitVec.ofNat 32 k)
    rwa [toNat_ofNat_of_lt hk] at hat
  · rw [lookup_of_outside hm hk, lookup_of_outside hm' hk]

/-- A canonical memory lists exactly the bytes that do not read as an unlisted one. -/
theorem lookup_of_memWf {m : Memory} (hm : m.wf) (a : Word) :
    Table.lookup m a.toNat = if m.byteAt a = Config.unlistedByte then none else some (m.byteAt a) := by
  obtain ⟨hrising, hcells⟩ := hm
  unfold Memory.byteAt
  cases hl : Table.lookup m a.toNat with
  | none => simp
  | some v =>
    obtain ⟨-, hv⟩ := hcells _ ((mem_iff_lookup hrising).mpr hl)
    simp [hv]

theorem memory_ext {m m' : Memory} (hm : m.wf) (hm' : m'.wf) (h : ∀ a, m.byteAt a = m'.byteAt a) : m = m' := by
  refine table_ext hm.1 hm'.1 (lookup_eq_of_words (fun c hc => (hm.2 c hc).1) (fun c hc => (hm'.2 c hc).1) fun a => ?_)
  rw [lookup_of_memWf hm, lookup_of_memWf hm', h]

/-- Settles O16: both forms are tables with rising keys, and writing back a byte changes no byte of a canonical
memory. -/
theorem canonicalFormIsExtensional : Obligations.CanonicalFormIsExtensional := by
  refine ⟨fun m m' => memory_ext, fun m m' hm hm' h => table_ext hm.1 hm'.1 (lookup_eq_of_words hm.2 hm'.2 h),
    fun m a hm => memory_ext (wf_setByte hm a _) hm fun b => ?_⟩
  rw [byteAt_setByte]
  split
  next hb => rw [hb]
  next => rfl

end Sys2Proof.Proofs
end

section
/-! The image load of any listing (70_reset_and_hazards.md R271 to R273): what the loader holds after text lines and after
data lines, as a function of the address, and which listings it accepts. -/

namespace Sys2Proof.Proofs

open Sys2Proof.Machine Sys2Proof.Spec

/-! ### The last line with a property -/

/-- The last line with a property is the last of the later lines with it, or else the first line if it has it. -/
theorem find?_reverse_cons (p : Line → Bool) (x : Line) (xs : List Line) :
    (x :: xs).reverse.find? p = (xs.reverse.find? p).or (if p x then some x else none) := by
  rw [List.reverse_cons, List.find?_append, List.find?_singleton]

/-- The first line of a listing is read, then the others. -/
theorem loaderLines_cons {l l' : Loader} {x : Line} (h : l.line x = some l') (xs : List Line) :
    l.lines (x :: xs) = l'.lines xs := by
  rw [Loader.lines, h]

/-! ### The text phase (R272) -/

/-- What text lines `xs` make of a loader `l`: the last line at an address gives its entry, and the last line whose four
bytes cover an address gives its byte. -/
structure TextRead (xs : List Line) (l l' : Loader) : Prop where
  phase : l'.dataPhase = false
  entry : ∀ a, l'.imem.entry a = ((xs.reverse.find? fun x => x.addr = a).map fun x => x.num).or (l.imem.entry a)
  byte : ∀ a, l'.mem.byteAt a =
    ((xs.reverse.find? fun x => (a - x.addr).toNat < 4).map fun x =>
      x.num.extractLsb' (8 * (a - x.addr).toNat) 8).getD (l.mem.byteAt a)

/-- Every text line is accepted, by induction on the lines. -/
theorem lines_text {xs : List Line} (hxs : ∀ x ∈ xs, x.num ≠ Config.sentinel) {l : Loader}
    (hphase : l.dataPhase = false) : ∃ l', l.lines xs = some l' ∧ TextRead xs l l' := by
  induction xs generalizing l with
  | nil => exact ⟨l, rfl, hphase, fun a => rfl, fun a => rfl⟩
  | cons x xs ih =>
    obtain ⟨hx, hrest⟩ := List.forall_mem_cons.mp hxs
    obtain ⟨l', hl', hread⟩ := ih hrest
      (l := { l with imem := l.imem.setEntry x.addr x.num, mem := l.mem.store x.addr x.num 4 }) hphase
    refine ⟨l', (loaderLines_cons (loaderLine_text hphase hx x.addr) xs).trans hl', hread.phase, fun a => ?_, fun a => ?_⟩
    · rw [hread.entry, find?_reverse_cons, entry_setEntry]
      cases xs.reverse.find? fun x => x.addr = a with
      | some y => rfl
      | none =>
        obtain rfl | ha := eq_or_ne a x.addr
        · simp
        · simp [ha, ha.symm]
    · rw [hread.byte, find?_reverse_cons, byteAt_store _ _ _ _ _ (by decide)]
      cases xs.reverse.find? fun x => (a - x.addr).toNat < 4 with
      | some y => rfl
      | none => by_cases ha : (a - x.addr).toNat < 4 <;> simp [-BitVec.toNat_sub, ha]

/-! ### The data phase (R272, R273 f) -/

/-- What data lines `xs` make of a loader `l`: the last line at an address gives its byte. -/
structure DataRead (xs : List Line) (l l' : Loader) : Prop where
  imem : l'.imem = l.imem
  byte : ∀ a, l'.mem.byteAt a =
    ((xs.reverse.find? fun x => x.addr = a).map fun x => x.num.extractLsb' 0 8).getD (l.mem.byteAt a)

/-- In the data phase a line is accepted when its number is a byte. -/
theorem loaderLine_byte {l : Loader} {x : Line} (hphase : l.dataPhase = true) (hx : x.num.toNat < 256) :
    l.line x = some { l with mem := l.mem.setByte x.addr (x.num.extractLsb' 0 8) } := by
  rw [Loader.line, if_pos hphase, if_pos hx]

/-- In the data phase any other line is refused. -/
theorem loaderLine_noByte {l : Loader} {x : Line} (hphase : l.dataPhase = true) (hx : ¬ x.num.toNat < 256) :
    l.line x = none := by
  rw [Loader.line, if_pos hphase, if_neg hx]

/-- Data lines with bytes as their numbers are accepted, by induction on the lines. -/
theorem lines_data {xs : List Line} (hxs : ∀ x ∈ xs, x.num.toNat < 256) {l : Loader} (hphase : l.dataPhase = true) :
    ∃ l', l.lines xs = some l' ∧ DataRead xs l l' := by
  induction xs generalizing l with
  | nil => exact ⟨l, rfl, rfl, fun a => rfl⟩
  | cons x xs ih =>
    obtain ⟨hx, hrest⟩ := List.forall_mem_cons.mp hxs
    obtain ⟨l', hl', hread⟩ := ih hrest
      (l := { l with mem := l.mem.setByte x.addr (x.num.extractLsb' 0 8) }) hphase
    refine ⟨l', (loaderLines_cons (loaderLine_byte hphase hx) xs).trans hl', hread.imem, fun a => ?_⟩
    rw [hread.byte, find?_reverse_cons, byteAt_setByte]
    cases xs.reverse.find? fun x => x.addr = a with
    | some y => rfl
    | none =>
      obtain rfl | ha := eq_or_ne a x.addr
      · simp
      · simp [ha, ha.symm]

/-- Data lines that are accepted have bytes as their numbers. -/
theorem bytes_of_lines_data {xs : List Line} {l l' : Loader} (hphase : l.dataPhase = true)
    (h : l.lines xs = some l') : ∀ x ∈ xs, x.num.toNat < 256 := by
  induction xs generalizing l with
  | nil => nofun
  | cons x xs ih =>
    by_cases hx : x.num.toNat < 256
    · rw [loaderLines_cons (loaderLine_byte hphase hx)] at h
      exact List.forall_mem_cons.mpr ⟨hx, ih (by exact hphase) h⟩
    · rw [Loader.lines, loaderLine_noByte hphase hx] at h
      cases h

/-! ### The whole listing -/

theorem textLines_no_sentinel (ls : List Line) : ∀ x ∈ textLines ls, x.num ≠ Config.sentinel := fun x hx => by
  simpa using List.mem_takeWhile_imp hx

/-- A listing is its text lines, then nothing or a sentinel line and the data lines. -/
theorem listing_split (ls : List Line) : (ls = textLines ls ∧ dataLines ls = []) ∨
    ∃ a, ls = textLines ls ++ ⟨a, Config.sentinel⟩ :: dataLines ls := by
  have hsplit : ls = textLines ls ++ ls.dropWhile fun x => x.num ≠ Config.sentinel :=
    List.takeWhile_append_dropWhile.symm
  unfold dataLines
  cases hrest : ls.dropWhile fun x => x.num ≠ Config.sentinel with
  | nil =>
    rw [hrest, List.append_nil] at hsplit
    exact .inl ⟨hsplit, rfl⟩
  | cons x xs =>
    have hx : x.num = Config.sentinel := by
      have hhead := List.head?_dropWhile_not (fun x : Line => decide (x.num ≠ Config.sentinel)) ls
      rw [hrest] at hhead
      simpa using hhead
    rw [hrest] at hsplit
    exact .inr ⟨x.addr, by rw [← hx]; exact hsplit⟩

/-- What the loader makes of a listing whose data lines are bytes: the text lines, then the data lines over them. -/
theorem lines_listing {ls : List Line} (hbytes : ∀ x ∈ dataLines ls, x.num.toNat < 256) :
    ∃ l₁ l₂, Loader.start.lines ls = some l₂ ∧ TextRead (textLines ls) Loader.start l₁ ∧
      DataRead (dataLines ls) l₁ l₂ := by
  obtain ⟨l₁, hl₁, htext⟩ := lines_text (textLines_no_sentinel ls) (l := Loader.start) rfl
  obtain ⟨hls, hnone⟩ | ⟨a, hls⟩ := listing_split ls
  · rw [← hls] at hl₁
    exact ⟨l₁, l₁, hl₁, htext, hnone ▸ ⟨rfl, fun a => rfl⟩⟩
  · obtain ⟨l₂, hl₂, hdata⟩ := lines_data hbytes (l := { l₁ with dataPhase := true }) rfl
    refine ⟨l₁, l₂, ?_, htext, hdata.imem, hdata.byte⟩
    rw [hls, loaderLines_append, hl₁, Option.bind_some, loaderLines_cons (loaderLine_sentinel htext.phase a)]
    exact hl₂

/-- A listing that the loader accepts has bytes as the numbers of its data lines. -/
theorem bytes_of_lines {ls : List Line} {l : Loader} (h : Loader.start.lines ls = some l) :
    ∀ x ∈ dataLines ls, x.num.toNat < 256 := by
  obtain ⟨-, hnone⟩ | ⟨a, hls⟩ := listing_split ls
  · rw [hnone]
    nofun
  · obtain ⟨l₁, hl₁, htext⟩ := lines_text (textLines_no_sentinel ls) (l := Loader.start) rfl
    rw [hls, loaderLines_append, hl₁, Option.bind_some, loaderLines_cons (loaderLine_sentinel htext.phase a)] at h
    exact bytes_of_lines_data rfl h

/-- Settles O9: the text lines are always accepted, and a data line exactly when its number is a byte. -/
theorem listingBootsUnlessDataIsNoByte : Obligations.ListingBootsUnlessDataIsNoByte := by
  intro ls
  constructor
  · rintro ⟨s, hs⟩
    obtain ⟨l, hl, -⟩ := boot_eq_some.mp hs
    exact bytes_of_lines hl
  · intro hbytes
    obtain ⟨-, l₂, hl₂, -⟩ := lines_listing hbytes
    exact ⟨_, boot_eq_some.mpr ⟨l₂, hl₂, rfl⟩⟩

/-! ### The state after reset and load (10_state.md R36) -/

theorem reset_reg (r : Reg) : State.reset.reg r = if r = 2 then 0x7FFFFFDC else 0 := by
  revert r
  decide

/-- The entries of an image from the loaded instruction map. -/
theorem imageEntry_of_textRead {ls : List Line} {l₁ : Loader} (h : TextRead (textLines ls) Loader.start l₁) (a : Word) :
    l₁.imem.entry a = imageEntry ls a := (h.entry a).trans (Option.or_none ..)

/-- The bytes of an image from the loaded data memory. -/
theorem imageByte_of_read {ls : List Line} {l₁ l₂ : Loader} (htext : TextRead (textLines ls) Loader.start l₁)
    (hdata : DataRead (dataLines ls) l₁ l₂) (a : Word) : l₂.mem.byteAt a = imageByte ls a := by
  rw [hdata.byte, htext.byte, imageByte]
  cases (dataLines ls).reverse.find? fun x => x.addr = a with
  | some x => rfl
  | none => cases (textLines ls).reverse.find? fun x => (a - x.addr).toNat < 4 <;> rfl

/-- Settles O7: the memories are those of the loader, everything else is as reset left it. -/
theorem bootStateIsResetPlusImage : Obligations.BootStateIsResetPlusImage := by
  intro ls s hs
  obtain ⟨l, hl, rfl⟩ := boot_eq_some.mp hs
  obtain ⟨l₁, l₂, hl₂, htext, hdata⟩ := lines_listing (bytes_of_lines hl)
  obtain rfl : l = l₂ := Option.some.inj (hl.symm.trans hl₂)
  refine ⟨fun r => ?_, rfl, rfl, rfl, fun a => ?_, imageByte_of_read htext hdata⟩
  · exact (reg_congr rfl r).trans (reset_reg r)
  · exact (congrArg (·.entry a) hdata.imem).trans (imageEntry_of_textRead htext a)

/-- Settles O8: with no line the loader leaves both memories empty. -/
theorem emptyListingBootsToReset : Obligations.EmptyListingBootsToReset :=
  ⟨rfl, fun _ => rfl, fun _ => rfl, reset_reg, rfl, rfl, rfl⟩

end Sys2Proof.Proofs
end

section
/-! The text of a line (30_encoding.md R114): a number ends at its first character that is no hex digit, so what follows a
space after the second number is never read. -/

namespace Sys2Proof.Proofs

open Sys2Proof.Machine Sys2Proof.Spec

section
variable {c : Char} (hc : hexDigit c = none) (tail : List Char)
include hc

/-- Text that begins with no hex digit does not extend the digits before it. -/
theorem hexDigits_append (acc : Nat) (cs : List Char) :
    hexDigits acc (cs ++ c :: tail) = ((hexDigits acc cs).1, (hexDigits acc cs).2 ++ c :: tail) := by
  induction cs generalizing acc with
  | nil => simp [hexDigits, hc]
  | cons d cs ih =>
    rw [List.cons_append, hexDigits, hexDigits]
    cases hexDigit d with
    | none => rfl
    | some v => exact ih _

/-- A number is read alike when such text is appended, which is then left over. -/
theorem hexNumber_append {cs rest : List Char} {n : Word} (h : hexNumber cs = some (n, rest)) :
    hexNumber (cs ++ c :: tail) = some (n, rest ++ c :: tail) := by
  unfold hexNumber at h
  split at h
  next d digits =>
    cases hd : hexDigit d with
    | none => simp [hd] at h
    | some v =>
      simp only [hd] at h
      split at h
      next hlt =>
        obtain ⟨rfl, rfl⟩ := Prod.mk.inj (Option.some.inj h)
        simpa [hexNumber, hd, hexDigits_append hc] using hlt
      next => cases h
  next => cases h

end

/-- Appended text is left where it is when spaces are dropped before other text. -/
theorem dropSpaces_append {cs : List Char} (h : dropSpaces cs ≠ []) (tail : List Char) :
    dropSpaces (cs ++ tail) = dropSpaces cs ++ tail := by
  induction cs with
  | nil => exact absurd rfl h
  | cons c cs ih =>
    by_cases hc : c = ' '
    · subst hc
      exact ih h
    · simp [dropSpaces, hc]

/-- Text that ends a number still does with a space and more appended. -/
theorem endsNumber_append {cs : List Char} (h : endsNumber cs = true) (tail : List Char) :
    endsNumber (cs ++ ' ' :: tail) = true := by
  cases cs with
  | nil => rfl
  | cons c cs => exact h

/-- What a line that can be parsed is made of. -/
theorem parseLine_eq_some {cs : List Char} {x : Line} : parseLine cs = some x ↔
    ∃ rest tail, hexNumber cs = some (x.addr, ' ' :: rest) ∧ hexNumber (dropSpaces rest) = some (x.num, tail) ∧
      endsNumber tail = true := by
  unfold parseLine
  constructor
  · intro h
    split at h
    next a rest hfirst =>
      split at h
      next n tail hsecond =>
        split at h
        next hend =>
          cases h
          exact ⟨rest, tail, hfirst, hsecond, hend⟩
        next => cases h
      next => cases h
    next => cases h
  · rintro ⟨rest, tail, hfirst, hsecond, hend⟩
    simp [hfirst, hsecond, hend]

/-- Settles O11: each of the two numbers is read alike with the text appended, which then stands after the second. -/
theorem annotationIsIgnored : Obligations.AnnotationIsIgnored := by
  intro cs annotation x h
  have hspace : hexDigit ' ' = none := by decide
  obtain ⟨rest, tail, hfirst, hsecond, hend⟩ := parseLine_eq_some.mp h
  have hne : dropSpaces rest ≠ [] := fun hnil => by
    rw [hnil] at hsecond
    cases hsecond
  refine parseLine_eq_some.mpr ⟨rest ++ ' ' :: ',' :: annotation, tail ++ ' ' :: ',' :: annotation,
    hexNumber_append hspace _ hfirst, ?_, endsNumber_append hend _⟩
  rw [dropSpaces_append hne]
  exact hexNumber_append hspace _ hsecond

end Sys2Proof.Proofs
end
